-- ==== Sys2Proof/Word.lean ====
section
/-! DEFINITION. The one word type of the block: the 8-bit byte (spec 30_encoding.md R90, 00_scope.md R14). -/

namespace Sys2Proof

/-- An input byte, a decoded byte and a buffer entry are all 8-bit values (00_scope.md §4, BYTE_W = 8; R14). -/
abbrev Byte := BitVec 8

end Sys2Proof
end

