-- ==== Sys2Proof/Config.lean ====
section
/-! DEFINITION. What is fixed when the block is built (00_scope.md R10 to R13, decisions D8, D20, D26), and the free draw of the
buffer contents that the spec leaves unspecified (10_state.md R46, U1). -/

namespace Sys2Proof

/-- The two readings of the unescape transform that 90_conflicts.md C1 names. D20 asks that the transform be configuration, so
that a claim about escaped bytes with bit 5 clear can be stated under either reading. -/
inductive UnescapeForm where
  /-- `b AND NOT ESCAPE_MASK`: the reading the spec follows (R95, C1). -/
  | andNot
  /-- `b XOR ESCAPE_MASK`: the losing reading of C1, kept so that claims can be restated. -/
  | xor
  deriving DecidableEq, Repr

/-- The block's build-time parameters (00_scope.md §4, D26). -/
structure Params where
  startByte    : Byte
  endByte      : Byte
  escapeByte   : Byte
  escapeMask   : Byte
  maxPacketLen : Nat
  unescape     : UnescapeForm
  deriving DecidableEq, Repr

/-- CAP = MAX_PACKET_LEN - 2 (R11): how many decoded payload bytes the buffer holds. -/
def Params.cap (p : Params) : Nat := p.maxPacketLen - 2

/-- LEN_W: the smallest w with 2^w > CAP (R12, D8). -/
def Params.lenW (p : Params) : Nat := if p.cap = 0 then 0 else Nat.log2 p.cap + 1

/-- R13: the three control values are pairwise distinct and MAX_PACKET_LEN >= 2. The 8-bit conditions hold by type. -/
def Params.wf (p : Params) : Bool :=
  p.startByte != p.endByte && p.startByte != p.escapeByte && p.endByte != p.escapeByte && decide (2 ≤ p.maxPacketLen)

/-- R13, second sentence: what the round trip of R103 also needs, `c AND ESCAPE_MASK = 0` for each control value c. -/
def Params.maskClear (p : Params) : Bool :=
  p.startByte &&& p.escapeMask == 0 && p.endByte &&& p.escapeMask == 0 && p.escapeByte &&& p.escapeMask == 0

/-- This hardware's parameters (the table of 00_scope.md §4, R10). UNVERIFIED: the spec calls the literals unaudited (D26, U14;
log entries 10 and 11). -/
def Config.params : Params where
  startByte    := 0x02
  endByte      := 0x03
  escapeByte   := 0x10
  escapeMask   := 0x20
  maxPacketLen := 512
  unescape     := .andNot

/-- CAP = 510 for this hardware (R11). -/
def Config.cap : Nat := Config.params.cap

/-- The unspecified buffer contents (10_state.md R42, R46; U1, treatment `any value`): `Config.bufDraw d i` is the byte at index i
under the d-th draw. It has no body, so nothing can be proved of its value (log entry 3). -/
opaque Config.bufDraw : Nat → Nat → Byte

end Sys2Proof
end

