-- ==== Sys2Proof/Syntax.lean ====
section
/-! DEFINITION. The block's "instructions" (00_scope.md R3): the five per-byte operations and the three host operations, one
constructor per row of spec/opcode_table.json. -/

namespace Sys2Proof

/-- The name of a packet consumer. The block never looks inside it (10_state.md R44); log entry 9. -/
abbrev Sink := Nat

/-- The opaque sink context (10_state.md R44). Its width CTX_W is OPEN (D2, U13), so any natural number is allowed; log entry 9. -/
abbrev Ctx := Nat

/-- An instruction of the block. -/
inductive Instr where
  /-- ESCAPED_DATA (R151): the byte after an escape; `b` is the wire byte, before unescaping. -/
  | escapedData (b : Byte)
  /-- START (R152). -/
  | start
  /-- END (R153). -/
  | endPacket
  /-- ESC (R154). -/
  | esc
  /-- DATA (R155): an ordinary data byte. -/
  | data (b : Byte)
  /-- CREATE (R120). -/
  | create (sink : Sink) (ctx : Ctx)
  /-- DESTROY (R122). -/
  | destroy
  /-- WRITE (R123): one chunk. -/
  | write (c : List Byte)
  deriving DecidableEq, Repr

/-- The three transactions a host (or a sink that breaks its contract) can issue (40_host_operations.md R131). -/
inductive HostOp where
  | create (sink : Sink) (ctx : Ctx)
  | destroy
  | write (c : List Byte)
  deriving DecidableEq, Repr

/-- The instruction a host transaction is (R3). -/
def HostOp.toInstr : HostOp → Instr
  | .create k x => .create k x
  | .destroy => .destroy
  | .write c => .write c

/-- The five classes of the decode table (30_encoding.md R92). -/
inductive ByteClass where
  | escapedData
  | start
  | endPacket
  | esc
  | data
  deriving DecidableEq, Repr

/-- The per-byte instruction that a class and the input byte select (R92, R94, R95). -/
def ByteClass.toInstr : ByteClass → Byte → Instr
  | .escapedData, b => .escapedData b
  | .start, _ => .start
  | .endPacket, _ => .endPacket
  | .esc, _ => .esc
  | .data, b => .data b

/-- The class of a per-byte instruction; a host transaction is none (R92, R131). -/
def Instr.byteClass? : Instr → Option ByteClass
  | .escapedData _ => some .escapedData
  | .start => some .start
  | .endPacket => some .endPacket
  | .esc => some .esc
  | .data _ => some .data
  | .create _ _ => none
  | .destroy => none
  | .write _ => none

end Sys2Proof
end

