-- ==== Sys2Proof/WellFormed.lean ====
section
/-! DEFINITION. Which instructions the spec's operand rules allow (30_encoding.md R93). -/

namespace Sys2Proof

/-- A control value of the alphabet: START_BYTE, END_BYTE or ESCAPE_BYTE (00_scope.md R10, glossary "control byte"). -/
def Params.isControl (p : Params) (b : Byte) : Bool :=
  b == p.startByte || b == p.endByte || b == p.escapeByte

/-- R93: DATA carries none of the control values; ESCAPED_DATA carries any byte. Host transactions have no encoding to check
(a chunk is a list, so its length cannot disagree with it: U10; an absent sink cannot be written: D6). -/
def Instr.wellFormed (p : Params) : Instr → Bool
  | .escapedData _ => true
  | .start => true
  | .endPacket => true
  | .esc => true
  | .data b => !p.isControl b
  | .create _ _ => true
  | .destroy => true
  | .write _ => true

end Sys2Proof
end

