-- ==== Sys2Proof/Decode.lean ====
section
/-! DEFINITION. Decode of the input byte under `pending_escape` (30_encoding.md R91 to R93), the encoder, and the table's
numbering of bits. Host transactions have no encoding (40_host_operations.md R131). -/

namespace Sys2Proof

/-- The decode table, tried in its priority order (R91, R92). -/
def classify (p : Params) (pendingEscape : Bool) (b : Byte) : ByteClass :=
  if pendingEscape then .escapedData
  else if b = p.startByte then .start
  else if b = p.endByte then .endPacket
  else if b = p.escapeByte then .esc
  else .data

/-- The instruction one input byte selects, for any parameters (R92). Total: no byte is illegal (R99). -/
def decodeByteWith (p : Params) (pendingEscape : Bool) (b : Byte) : Instr :=
  (classify p pendingEscape b).toInstr b

/-- The instruction one input byte selects in this hardware (R92). -/
def decodeByte (pendingEscape : Bool) (b : Byte) : Instr :=
  decodeByteWith Config.params pendingEscape b

/-- Why a byte string holds no instruction. -/
inductive DecodeError where
  /-- There is no byte to decode. Every byte decodes (R99), so this is the only rejection. -/
  | noByte
  deriving DecidableEq, Repr

/-- Decode the first instruction of a stream and return the bytes after it: one byte is one decode unit (R90). -/
def decode (pendingEscape : Bool) : List Byte → Except DecodeError (Instr × List Byte)
  | [] => .error .noByte
  | b :: rest => .ok (decodeByte pendingEscape b, rest)

/-- The value of `pending_escape` under which an instruction is decoded from bytes (R92): 1 for ESCAPED_DATA alone. -/
def Instr.decodeContext : Instr → Bool
  | .escapedData _ => true
  | .start => false
  | .endPacket => false
  | .esc => false
  | .data _ => false
  | .create _ _ => false
  | .destroy => false
  | .write _ => false

/-- The bytes of an instruction (R90, R92; opcode_table.json). Host transactions are not byte patterns (R131): none. -/
def encodeWith (p : Params) : Instr → Option (List Byte)
  | .escapedData b => some [b]
  | .start => some [p.startByte]
  | .endPacket => some [p.endByte]
  | .esc => some [p.escapeByte]
  | .data b => some [b]
  | .create _ _ => none
  | .destroy => none
  | .write _ => none

/-- The bytes of an instruction in this hardware. -/
def encode (i : Instr) : Option (List Byte) := encodeWith Config.params i

/-- The instruction the decoder reads from a table word: one byte of 8 bits. The table's word alone does not say
`pending_escape`; it is read as after reset, `pending_escape = 0` (R46), so ESCAPED_DATA is never the answer (log entry 15). -/
def decodeTableWord (nbits w : Nat) : Option Instr :=
  if nbits = 8 ∧ w < 256 then
    match decode false [BitVec.ofNat 8 w] with
    | .ok (i, _) => some i
    | .error _ => none
  else none

end Sys2Proof
end

