-- ==== Sys2Proof/Machine/Operands.lean ====
section
/-! DEFINITION. Operand assembly (30_encoding.md R94 to R96): the decoded value each class carries. -/

namespace Sys2Proof.Machine

/-- The unescape transform (R95): AND-NOT of the mask in this hardware (C1, D20); the other reading is kept as a parameter. -/
def unescape (p : Params) (b : Byte) : Byte :=
  match p.unescape with
  | .andNot => b &&& ~~~p.escapeMask
  | .xor => b ^^^ p.escapeMask

/-- The decoded value of a class (R94, R95): ESCAPED_DATA carries `unescape b`, DATA carries b, the control classes carry none. -/
def operand (p : Params) (k : ByteClass) (b : Byte) : Option Byte :=
  match k with
  | .escapedData => some (unescape p b)
  | .start => none
  | .endPacket => none
  | .esc => none
  | .data => some b

end Sys2Proof.Machine
end

