-- ==== Sys2Proof/Machine/State.lean ====
section
/-! DEFINITION. The state of one decoder instance (10_state.md R30), the reasons a step can stop (60_exceptions.md R203), and the
state after reset (R46, 70_reset_and_hazards.md R230). -/

namespace Sys2Proof.Machine

/-- The written cells of the packet buffer, addresses strictly rising. An index not listed holds nothing that Append wrote since
the last Create; what such an index reads as is `Config.bufDraw` (log entries 3 and 4). -/
abbrev Memory := List Host.Cell

/-- The lifecycle state (10_state.md R45). -/
inductive Life where
  | unmade
  | live
  | dead
  deriving DecidableEq, Repr

/-- `cfg` (10_state.md R44): fixed by Create, never changed after. -/
structure SinkCfg where
  sink : Sink
  ctx  : Ctx
  deriving DecidableEq, Repr

/-- One emission event `emit(ctx, n, data)` (00_scope.md R19). The length is an unsigned integer, not bytes (R65, D22). -/
structure Emission where
  ctx  : Ctx
  len  : Nat
  data : List Byte
  deriving DecidableEq, Repr

/-- One emission handed to a sink (40_host_operations.md R128). -/
structure Delivery where
  sink     : Sink
  emission : Emission
  deriving DecidableEq, Repr

/-- What the host asks for in one step (R131): one offered byte (R130, R132 `in_valid`) or one host transaction. -/
inductive Request where
  | byte (b : Byte)
  | op (o : HostOp)
  deriving DecidableEq, Repr

/-- The faults of 60_exceptions.md R203. Each stands where the source gives no behaviour. The first three have the treatment `fault` of
93_implementation_defined.md and stop the machine; the last has the treatment `refuse` (U5) and is recorded in `State.faults` (log
entry 7). -/
inductive Fault where
  /-- Raised by Write and Destroy while `life = Unmade` (R203, D29). Safe: nothing is claimed past it. -/
  | notCreated
  /-- Raised by Write while `life = Dead` (R203, D16). Safe: nothing is claimed past it. -/
  | useAfterDestroy
  /-- Raised by Destroy while `life = Dead` (R122, R203, D16). Safe: nothing is claimed past it. -/
  | doubleDestroy
  /-- Recorded by a delivery when the sink issues Create, Destroy or Write on the instance that is delivering to it (R129, R203, D12):
  the call does nothing and the machine goes on (U5). No step stops with it. Unsafe for a claim about the original software past
  such a call; the record marks every such state (log entry 6). -/
  | reentrantCall
  deriving DecidableEq, Repr

/-- The refusals of the model. -/
inductive Refusal where
  /-- Raised by an arm of `exec` whose instruction has no meaning yet; no arm is in that case. Safe. -/
  | notModelled (mnemonic : String)
  /-- Raised by `buildBlock` for parameters that are not well formed (00_scope.md R13, D26). Safe. -/
  | illFormedConfig
  /-- Raised by `pinStep` when more than one of `create`, `destroy`, `in_valid` is asserted (R132; U6). Safe. -/
  | overlappingSignals
  deriving DecidableEq, Repr

/-- The state of one instance. -/
structure State where
  /-- `buf`: the cells written since the last Create (R41, R42). -/
  buf : Memory
  /-- `len` (R32). INV1 `0 <= len <= CAP` is part of its type, as R37 allows (log entry 8). -/
  len : Fin (Config.cap + 1)
  /-- `in_packet` (R34). -/
  inPacket : Bool
  /-- `pending_escape` (R35). -/
  pendingEscape : Bool
  /-- `life` (R45). -/
  life : Life
  /-- `cfg.sink` and `cfg.ctx` (R44). -/
  cfg : SinkCfg
  /-- The emissions that byte steps have made and that are not yet delivered (R19, R21; log entry 5). Empty between host operations. -/
  out : List Emission
  /-- The emissions delivered so far, oldest first (R128, R212; log entry 5). -/
  delivered : List Delivery
  /-- The fault record (00_scope.md R20, R203, R212), oldest first; never cleared. A fault that stops the machine is the outcome of its
  step and enters the record where the step is run (`observe`, `stepInstance`; log entry 7). -/
  faults : List Fault
  /-- The MODEL's own field: which free draw of the buffer contents is in force (log entry 3). -/
  draw : Nat
  /-- The MODEL's own field: the host's requests not yet performed, oldest first (R125; log entry 1). -/
  inputs : List Request
  /-- The MODEL's own field: for each coming delivery, the calls the sink makes on this instance during it (R129; log entry 6). No
  entry left means no call. -/
  sinkCalls : List (List HostOp)
  deriving DecidableEq, Repr

/-- The machine right after its reset, which is Create (R230): the values of R46. The Create arguments are not the spec's to give;
DESIGN CHOICE sink 0 and context 0 (log entry 2). -/
def State.reset : State where
  buf           := []
  len           := ⟨0, Nat.succ_pos _⟩
  inPacket      := false
  pendingEscape := false
  life          := .live
  cfg           := { sink := 0, ctx := 0 }
  out           := []
  delivered     := []
  faults        := []
  draw          := 0
  inputs        := []
  sinkCalls     := []

end Sys2Proof.Machine
end

