-- ==== Sys2Proof/Machine/Flags.lean ====
section
/-! DEFINITION. The two flags and the length register together: the state names of 10_state.md R36 and the state reset of
41_byte_operations.md R158. -/

namespace Sys2Proof.Machine

/-- The four flag combinations (R36). -/
inductive FramerState where
  | idle
  | accumulating
  | escaped
  | idleEscaped
  deriving DecidableEq, Repr

/-- The name of a state (R36). -/
def State.framerState (s : State) : FramerState :=
  match s.inPacket, s.pendingEscape with
  | false, false => .idle
  | true, false => .accumulating
  | true, true => .escaped
  | false, true => .idleEscaped

/-- `len` as the 9-bit register the spec gives it (R32, 00_scope.md R12). -/
def State.lenReg (s : State) : BitVec Config.params.lenW := BitVec.ofNat _ s.len.val

/-- `StateReset()` (R158): `len`, `in_packet` and `pending_escape` become 0; `buf` stays. -/
def stateReset (s : State) : State :=
  { s with len := ⟨0, Nat.succ_pos _⟩, inPacket := false, pendingEscape := false }

/-- What START writes (R152, R158): as `stateReset`, with `in_packet <- 1`. -/
def openPacket (s : State) : State :=
  { s with len := ⟨0, Nat.succ_pos _⟩, inPacket := true, pendingEscape := false }

/-- `pending_escape <- v` (R35, R151, R154). -/
def setPendingEscape (v : Bool) (s : State) : State :=
  { s with pendingEscape := v }

end Sys2Proof.Machine
end

