-- ==== Sys2Proof/Machine/Ops.lean ====
section
/-! DEFINITION. The named operations over the buffer and the output that the instructions share: MemRead and MemWrite (00_scope.md
R18, 20_memory.md R61), Append (41_byte_operations.md R156), the emission (R157), delivery (40_host_operations.md R128, R129), and the
refusal of an ill-formed configuration (R13, D26). The block takes no exceptions (60_exceptions.md R200, R202, R207): a fault of R203
is recorded (`recordFault`) or stops the machine (`Outcome.fault`; log entry 7), and there is no return from it. -/

namespace Sys2Proof.Machine

/-- The written byte at an address, if one is listed. -/
def Memory.read? : Memory → Nat → Option Byte
  | [], _ => none
  | (k, v) :: m, a => if k = a then some v else Memory.read? m a

/-- Write one byte, keeping the addresses strictly rising. -/
def Memory.write : Memory → Nat → Byte → Memory
  | [], a, b => [(a, b)]
  | (k, v) :: m, a, b =>
    if a < k then (a, b) :: (k, v) :: m
    else if a = k then (a, b) :: m
    else (k, v) :: Memory.write m a b

/-- The addresses are strictly rising. -/
def Memory.rising : Memory → Bool
  | [] => true
  | [_] => true
  | (a, _) :: (b, w) :: m => decide (a < b) && Memory.rising ((b, w) :: m)

/-- The canonical form: strictly rising addresses, all inside 0..CAP-1 (20_memory.md R60, R67). An unlisted address holds no written
byte, so no entry can equal what an unlisted address holds (log entry 4). -/
def Memory.wf (m : Memory) : Bool :=
  m.rising && m.all (fun c => decide (c.1 < Config.cap))

/-- What `buf[i]` holds: the byte written there, else the free draw in force (10_state.md R42, R46; log entry 3). -/
def readByte (s : State) (i : Nat) : Byte :=
  (s.buf.read? i).getD (Config.bufDraw s.draw i)

/-- `MemRead(0, n)` (00_scope.md R18): the list `[buf[0] ... buf[n-1]]`. -/
def memRead (s : State) (n : Fin (Config.cap + 1)) : List Byte :=
  (List.range n.val).map (readByte s)

/-- `MemWrite(i, 1, v)` (R18). The index is in 0..CAP-1 by type (20_memory.md R67). -/
def memWrite (i : Fin Config.cap) (v : Byte) (s : State) : State :=
  { s with buf := s.buf.write i.val v }

/-- The packet in progress, `buf[0..len)`. -/
def State.packet (s : State) : List Byte := memRead s s.len

/-- The register shows a packet of CAP bytes: no room for another (R156 `len == CAP`). -/
def State.full (s : State) : Bool := s.len.val == Config.cap

/-- Store one byte at `buf[len]` and count it (the last branch of R156). -/
def store (v : Byte) (s : State) (h : s.len.val < Config.cap) : State :=
  { memWrite ⟨s.len.val, h⟩ v s with len := ⟨s.len.val + 1, Nat.succ_lt_succ h⟩ }

/-- `Append(v)` (R156): drop outside a packet, overflow at CAP, else store. INV1 is in the type of `len`, so `len < CAP` is the
negation of `len == CAP`. -/
def append (v : Byte) (s : State) : State :=
  if s.inPacket = false then s
  else if h : s.len.val < Config.cap then store v s h
  else stateReset s

/-- The event END emits (R157): the context, the length and a copy of the packet at this instant. -/
def currentEmission (s : State) : Emission :=
  { ctx := s.cfg.ctx, len := s.len.val, data := s.packet }

/-- `emit` (00_scope.md R19, R157): append the event to the block's output. -/
def emit (s : State) : State :=
  { s with out := s.out ++ [currentEmission s] }

/-- Go on with the next state of an outcome; a fault or a refusal stops. -/
def andThen (o : Host.Outcome State Fault Refusal) (f : State → Host.Outcome State Fault Refusal) :
    Host.Outcome State Fault Refusal :=
  match o with
  | .next t => f t
  | .fault r => .fault r
  | .refused r => .refused r

/-- `raise Fault(reason)` as a mark on the state (00_scope.md R20): the reason enters the fault record, which nothing clears. -/
def recordFault (r : Fault) (s : State) : State :=
  { s with faults := s.faults ++ [r] }

/-- Refuse the calls a sink makes on the instance that is delivering to it: each is recorded as ReentrantCall and does nothing else,
whichever operation it is (R129, R203; U5). -/
def refuseCalls : List HostOp → State → State
  | [], s => s
  | _ :: calls, s => refuseCalls calls (recordFault .reentrantCall s)

/-- How many calls the sink makes in the next `n` deliveries. -/
def callsDuring (calls : List (List HostOp)) (n : Nat) : Nat :=
  ((calls.take n).map List.length).sum

/-- Hand one emission to `cfg.sink` (R128): it accepts at once (D5), and whatever it calls meanwhile is refused (R129). -/
def deliverOne (e : Emission) (s : State) : State :=
  refuseCalls (s.sinkCalls.headD [])
    { s with delivered := s.delivered ++ [⟨s.cfg.sink, e⟩], sinkCalls := s.sinkCalls.tail }

/-- Hand a list of emissions over, in order. -/
def deliverAll : List Emission → State → State
  | [], s => s
  | e :: es, s => deliverAll es (deliverOne e s)

/-- `for e in out: deliver e to cfg.sink` (40_host_operations.md R123): everything made and not yet delivered. -/
def deliverOut (s : State) : State :=
  deliverAll s.out { s with out := [] }

/-- The life check of Write (R123): Unmade and Dead are faults, a live instance goes on. -/
def whenLive (f : State → Host.Outcome State Fault Refusal) (s : State) : Host.Outcome State Fault Refusal :=
  match s.life with
  | .unmade => .fault .notCreated
  | .dead => .fault .useAfterDestroy
  | .live => f s

/-- Building a block from parameters: those that are not well formed are refused (00_scope.md R13, D26). -/
def buildBlock (p : Params) : Host.Outcome Params Fault Refusal :=
  if p.wf then .next p else .refused .illFormedConfig

end Sys2Proof.Machine
end

