-- ==== Sys2Proof/Machine/ByteOps.lean ====
section
/-! DEFINITION. The five per-byte operations (41_byte_operations.md R151 to R155), and Step, which dispatches one input byte to one of
them (R150). None of them reads `life` or `cfg.sink`, and none faults (R150, R166). -/

namespace Sys2Proof.Machine

/-- ESCAPED_DATA (R151): append the unescaped byte, then `pending_escape <- 0`. -/
def escapedDataStep (b : Byte) (s : State) : State :=
  setPendingEscape false (append (unescape Config.params b) s)

/-- START (R152). -/
def startStep (s : State) : State := openPacket s

/-- END (R153): emit if a packet is open, then reset the state in both cases. -/
def endStep (s : State) : State :=
  stateReset (if s.inPacket then emit s else s)

/-- ESC (R154): the ESC byte itself is never appended. -/
def escStep (s : State) : State := setPendingEscape true s

/-- DATA (R155): append the byte unchanged. -/
def dataStep (b : Byte) (s : State) : State := append b s

/-- The meaning of ESCAPED_DATA. -/
def execEscapedData (b : Byte) (s : State) : Host.Outcome State Fault Refusal := .next (escapedDataStep b s)

/-- The meaning of START. -/
def execStart (s : State) : Host.Outcome State Fault Refusal := .next (startStep s)

/-- The meaning of END. -/
def execEndPacket (s : State) : Host.Outcome State Fault Refusal := .next (endStep s)

/-- The meaning of ESC. -/
def execEsc (s : State) : Host.Outcome State Fault Refusal := .next (escStep s)

/-- The meaning of DATA. -/
def execData (b : Byte) (s : State) : Host.Outcome State Fault Refusal := .next (dataStep b s)

/-- `Step(S, b)` (R150): exactly one class runs per byte. The emission, if one is made, stands at the end of `out`. -/
def byteStep (s : State) (b : Byte) : State :=
  match classify Config.params s.pendingEscape b with
  | .escapedData => escapedDataStep b s
  | .start => startStep s
  | .endPacket => endStep s
  | .esc => escStep s
  | .data => dataStep b s

/-- The fold of Step over a byte list (R126), with no delivery in between. -/
def feed (s : State) (c : List Byte) : State := c.foldl byteStep s

end Sys2Proof.Machine
end

