-- ==== Sys2Proof/Machine/HostOps.lean ====
section
/-! DEFINITION. The three host operations (40_host_operations.md R120 to R124). -/

namespace Sys2Proof.Machine

/-- What Create writes (R120): the configuration, `len`, both flags, a fresh free draw of the buffer (R46, log entry 3) and `life`.
It makes no emission, whatever `life` held (R121). -/
def createStep (sink : Sink) (ctx : Ctx) (s : State) : State :=
  { stateReset s with
    cfg := { sink := sink, ctx := ctx }
    buf := []
    draw := s.draw + 1
    life := .live }

/-- The meaning of CREATE (R120, R121): it cannot fail (D15). -/
def execCreate (sink : Sink) (ctx : Ctx) (s : State) : Host.Outcome State Fault Refusal :=
  .next (createStep sink ctx s)

/-- The meaning of DESTROY (R122). -/
def execDestroy (s : State) : Host.Outcome State Fault Refusal :=
  match s.life with
  | .unmade => .fault .notCreated
  | .dead => .fault .doubleDestroy
  | .live => .next { s with life := .dead }

/-- The loop of Write (R123): one byte step, then its emissions delivered, before the next byte is read. -/
def writeLoop : List Byte → State → State
  | [], s => s
  | b :: c, s => writeLoop c (deliverOut (byteStep s b))

/-- The meaning of WRITE (R123). -/
def execWrite (c : List Byte) (s : State) : Host.Outcome State Fault Refusal :=
  whenLive (fun s => .next (writeLoop c s)) s

end Sys2Proof.Machine
end

