-- ==== Sys2Proof/Machine/Dispatch.lean ====
section
/-! DEFINITION. One arm per row of spec/opcode_table.json. -/

namespace Sys2Proof.Machine

def exec (i : Instr) (s : State) : Host.Outcome State Fault Refusal :=
  match i with
  | .escapedData b => Sys2Proof.Machine.execEscapedData b s
  | .start => Sys2Proof.Machine.execStart s
  | .endPacket => Sys2Proof.Machine.execEndPacket s
  | .esc => Sys2Proof.Machine.execEsc s
  | .data b => Sys2Proof.Machine.execData b s
  | .create sink ctx => Sys2Proof.Machine.execCreate sink ctx s
  | .destroy => Sys2Proof.Machine.execDestroy s
  | .write c => Sys2Proof.Machine.execWrite c s

end Sys2Proof.Machine
end

