-- ==== Sys2Proof/Machine/Offer.lean ====
section
/-! DEFINITION. Taking the host's next request and performing it (40_host_operations.md R125, R130, R131). -/

namespace Sys2Proof.Machine

/-- One byte offered to the block is `Write([b])` (R130): the life check, the instruction the byte decodes to, and the delivery of
what it emitted. -/
def offerByte (b : Byte) (s : State) : Host.Outcome State Fault Refusal :=
  whenLive (fun s => andThen (exec (decodeByte s.pendingEscape b) s) (fun t => .next (deliverOut t))) s

/-- Perform one request. -/
def perform (r : Request) (s : State) : Host.Outcome State Fault Refusal :=
  match r with
  | .byte b => offerByte b s
  | .op o => exec o.toInstr s

/-- The oldest waiting request and the state without it (R125). -/
def fetch (s : State) : Option (Request × State) :=
  match s.inputs with
  | [] => none
  | r :: rest => some (r, { s with inputs := rest })

/-- Put a request in front of all that wait. -/
def place (r : Request) (s : State) : State :=
  { s with inputs := r :: s.inputs }

/-- The table's word as the next offered byte; a word that is not one byte places nothing (30_encoding.md R90). -/
def placeWord (s : State) (nbits w : Nat) : State :=
  if nbits = 8 ∧ w < 256 then place (.byte (BitVec.ofNat 8 w)) s else s

end Sys2Proof.Machine
end

