-- ==== Sys2Proof/Machine/Instances.lean ====
section
/-! DEFINITION. Several instances at once (10_state.md R47, 60_exceptions.md R211): each holds its own copy of all state, its own sink
and its own stop, and a handle names one of them. -/

namespace Sys2Proof.Machine

/-- One instance among several: its state, and whether a fault or a refusal has stopped it (log entry 14). -/
structure Instance where
  state   : State
  stopped : Bool
  deriving DecidableEq, Repr

/-- Instances by handle. -/
abbrev Instances := List Instance

/-- One step of one instance. A fault that stops it enters its own fault record (00_scope.md R20, R203); a stopped instance stays as it is,
since the fault is never cleared (95_test_vectors.md, program D). -/
def stepOne (c : Instance) : Instance :=
  if c.stopped then c
  else match step c.state with
    | .next t => { c with state := t }
    | .fault r => { state := recordFault r c.state, stopped := true }
    | .refused _ => { c with stopped := true }

/-- One step of the instance a handle names. The others do nothing and go on, whatever becomes of that one: no state is shared and none
signals another (R47, R211, D25). -/
def stepInstance (is : Instances) (h : Fin is.length) : Instances :=
  is.set h.val (stepOne (is.get h))

end Sys2Proof.Machine
end

