-- ==== Sys2Proof/Machine/Pins.lean ====
section
/-! DEFINITION. The signal-level reading of the interface (40_host_operations.md R132). The spec calls it informative; the context
width CTX_W is OPEN and is an argument here (D2, U13). -/

namespace Sys2Proof.Machine

/-- The input signals of R132. There is no `in_ready`. -/
structure InPins (w : Nat) where
  create  : Bool
  ctxIn   : BitVec w
  destroy : Bool
  inValid : Bool
  inByte  : Byte
  deriving DecidableEq, Repr

/-- The output signals of R132. `outData` lists entries 0..n-1 only: the others carry nothing and must not be exposed. -/
structure OutPins (w : Nat) where
  outValid : Bool
  outCtx   : BitVec w
  outLen   : BitVec Config.params.lenW
  outData  : List Byte
  deriving DecidableEq, Repr

/-- The request of one step: none, or the one asserted. More than one asserted breaks R132's contract (R125): no answer. -/
def pinRequest {w : Nat} (sink : Sink) (p : InPins w) : Option (Option Request) :=
  match p.create, p.destroy, p.inValid with
  | false, false, false => some none
  | true, false, false => some (some (.op (.create sink p.ctxIn.toNat)))
  | false, true, false => some (some (.op .destroy))
  | false, false, true => some (some (.byte p.inByte))
  | true, true, _ => none
  | true, _, true => none
  | _, true, true => none

/-- One step of the block as the signals drive it. The sink is not a signal: it is wired. -/
def pinStep {w : Nat} (sink : Sink) (p : InPins w) (s : State) : Host.Outcome State Fault Refusal :=
  match pinRequest sink p with
  | none => .refused .overlappingSignals
  | some none => .next s
  | some (some r) => perform r s

/-- The output signals of a step from `s` to `t`: the emission the step delivered, if any. A quiet step drives zeros beside
`out_valid = 0` (the spec gives them no meaning there; log entry 21). -/
def outPins (w : Nat) (s t : State) : OutPins w :=
  match (t.delivered.drop s.delivered.length).head? with
  | none => { outValid := false, outCtx := 0, outLen := 0, outData := [] }
  | some d => { outValid := true, outCtx := BitVec.ofNat w d.emission.ctx, outLen := BitVec.ofNat _ d.emission.len, outData := d.emission.data }

end Sys2Proof.Machine
end

