-- ==== Sys2Proof/Machine/Recovery.lean ====
section
/-! DEFINITION. The recovery conditions (60_exceptions.md R201). They are labels: the block neither records nor reports them (R200,
R201), so nothing of State holds them and `exec` does not use them. -/

namespace Sys2Proof.Machine

/-- The five labels (R201, D30). -/
inductive Recovery where
  | strayEnd
  | overflow
  | restart
  | dropOutside
  | deferredEscape
  deriving DecidableEq, Repr

/-- The class and byte is one that appends: DATA or ESCAPED_DATA. -/
def ByteClass.appends : ByteClass → Bool
  | .escapedData => true
  | .start => false
  | .endPacket => false
  | .esc => false
  | .data => true

/-- The column "detected when" of R201, for the byte `b` met in state `s`; `last` says that it is the last byte of its chunk. -/
def Recovery.detected (r : Recovery) (s : State) (b : Byte) (last : Bool) : Bool :=
  let k := classify Config.params s.pendingEscape b
  match r with
  | .strayEnd => k == .endPacket && !s.inPacket
  | .overflow => ByteClass.appends k && s.inPacket && s.full
  | .restart => k == .start && s.inPacket
  | .dropOutside => ByteClass.appends k && !s.inPacket
  | .deferredEscape => k == .esc && last

end Sys2Proof.Machine
end

