-- ==== Sys2Proof/Machine/Sender.lean ====
section
/-! DEFINITION. The sender-side pseudo-operations (30_encoding.md R101): not operations of the block, but the terms in which the
round trip (R103) and the frame length (R104) are stated. -/

namespace Sys2Proof.Machine

/-- `ESCBYTE(v)` (R101). -/
def escByte (p : Params) (v : Byte) : List Byte :=
  if p.isControl v then [p.escapeByte, v ||| p.escapeMask] else [v]

/-- `ENC(p)` (R101). -/
def enc (p : Params) : List Byte → List Byte
  | [] => []
  | v :: vs => escByte p v ++ enc p vs

/-- `FRAME(p)` (R101). -/
def frame (p : Params) (payload : List Byte) : List Byte :=
  [p.startByte] ++ enc p payload ++ [p.endByte]

/-- How many bytes of a payload need an escape (the e of R104). -/
def escapeCount (p : Params) (payload : List Byte) : Nat :=
  payload.countP p.isControl

end Sys2Proof.Machine
end

