-- ==== Sys2Proof/Machine/Stream.lean ====
section
/-! DEFINITION. Two other forms of the block's behaviour that the spec gives: the declarative token form (41_byte_operations.md R167),
and the source's look-ahead scan (40_host_operations.md R127). Neither is used by `exec`. -/

namespace Sys2Proof.Machine

/-- The tokens of R167. -/
inductive Token where
  /-- `D(v)`: one decoded byte. -/
  | decoded (v : Byte)
  /-- `S` -/
  | opening
  /-- `E` -/
  | closing
  /-- `P`: a final ESC with no byte after it. -/
  | dangling
  deriving DecidableEq, Repr

/-- The token of a byte that is not ESC (R167). -/
def plainToken (b : Byte) : Token :=
  if b = Config.params.startByte then .opening
  else if b = Config.params.endByte then .closing
  else .decoded b

/-- Cut a stream into tokens from left to right (R167). -/
def tokenize : List Byte → List Token
  | [] => []
  | [b] => if b = Config.params.escapeByte then [.dangling] else [plainToken b]
  | b :: x :: rest =>
    if b = Config.params.escapeByte then .decoded (unescape Config.params x) :: tokenize rest
    else plainToken b :: tokenize (x :: rest)

/-- The `D` values after the nearest `S` or `E`, when that is an `S`, from the tokens seen so far, newest first (R167). A
dangling ESC is no `D` token and is skipped. -/
def sinceOpening : List Token → Option (List Byte)
  | [] => none
  | .decoded v :: ts => (sinceOpening ts).map (· ++ [v])
  | .opening :: _ => some []
  | .closing :: _ => none
  | .dangling :: ts => sinceOpening ts

/-- The packet that is open after these tokens, newest first: at most CAP `D` tokens since its `S` (R167). -/
def openAfter (seen : List Token) : Option (List Byte) :=
  match sinceOpening seen with
  | some d => if d.length ≤ Config.cap then some d else none
  | none => none

/-- The payloads emitted by the `E` tokens of a stream, in their order, after the tokens `seen`, newest first (R167). -/
def emittedFrom : List Token → List Token → List (List Byte)
  | _, [] => []
  | seen, .closing :: ts => (openAfter seen).toList ++ emittedFrom (.closing :: seen) ts
  | seen, .decoded v :: ts => emittedFrom (.decoded v :: seen) ts
  | seen, .opening :: ts => emittedFrom (.opening :: seen) ts
  | seen, .dangling :: ts => emittedFrom (.dangling :: seen) ts

/-- The payloads a stream emits, starting from IDLE (R167). -/
def emittedBy (c : List Byte) : List (List Byte) := emittedFrom [] (tokenize c)

/-- The source's scan of one chunk (R127): an ESC takes the next byte of the same chunk at once and does not set
`pending_escape`; only an ESC that ends the chunk defers. -/
def lookAheadFeed (s : State) : List Byte → State
  | [] => s
  | [b] => byteStep s b
  | b :: x :: rest =>
    if s.pendingEscape = false ∧ b = Config.params.escapeByte then
      lookAheadFeed (append (unescape Config.params x) s) rest
    else lookAheadFeed (byteStep s b) (x :: rest)

end Sys2Proof.Machine
end

