-- ==== Sys2Proof/Safety.lean ====
section
/-! DEFINITION. What claims speak of: the invariants of reachable states (10_state.md R37, 41_byte_operations.md R161), power-up
states (R231), quiet sinks (R235) and the observation (R212). -/

namespace Sys2Proof.Machine

/-- A power-up state: nothing has been created and every other field is unspecified (R46, R231, U15), so ANY state with this
`life` is one. -/
def State.IsPowerUp (s : State) : Prop := s.life = .unmade

/-- INV2 (R37): `in_packet = 0` implies `len = 0`. -/
def State.Inv2 (s : State) : Prop := s.inPacket = false → s.len.val = 0

/-- The part of R161 a state shows by itself: while a packet is open, every entry below `len` was written since Create. -/
def State.PacketWritten (s : State) : Prop :=
  s.inPacket = true → ∀ i, i < s.len.val → (s.buf.read? i).isSome = true

/-- The invariant of reachable states: the buffer's canonical form always, nothing left undelivered, and, once created, INV2 and
written packets. Before the first Create the flags and `len` are unspecified (U15). INV1 is in the type of `len`. -/
structure State.Inv (s : State) : Prop where
  bufWf     : s.buf.wf = true
  outEmpty  : s.out = []
  inv2      : s.life ≠ .unmade → s.Inv2
  written   : s.life ≠ .unmade → s.PacketWritten

/-- The sink keeps its contract (R129, R235): it makes no call in any coming delivery. -/
def State.QuietSink (s : State) : Prop := ∀ calls ∈ s.sinkCalls, calls = []

/-- A live instance at the boundary of host operations. -/
structure State.Ready (s : State) : Prop where
  live     : s.life = .live
  outEmpty : s.out = []

/-- IDLE as the transition table writes it, `(0, 0, 0)` (R36, R159). -/
def State.IsIdle (s : State) : Prop := s.framerState = .idle ∧ s.len.val = 0

/-- The delivery of a payload by an instance: its sink, its context, the length and the bytes (R19, R128). -/
def State.deliveryOf (s : State) (payload : List Byte) : Delivery :=
  { sink := s.cfg.sink, emission := { ctx := s.cfg.ctx, len := payload.length, data := payload } }

/-- Two states that agree on everything but stale buffer entries, the free draw and the waiting requests (R42, R161). -/
structure State.SameButStale (s t : State) : Prop where
  len           : t.len = s.len
  inPacket      : t.inPacket = s.inPacket
  pendingEscape : t.pendingEscape = s.pendingEscape
  life          : t.life = s.life
  cfg           : t.cfg = s.cfg
  out           : t.out = s.out
  delivered     : t.delivered = s.delivered
  faults        : t.faults = s.faults
  sinkCalls     : t.sinkCalls = s.sinkCalls
  packet        : s.inPacket = true → t.packet = s.packet

/-- What a model observes (R212, D24): the emission sequence and the fault record. -/
structure Observation where
  emissions : List Delivery
  faults    : List Fault
  deriving DecidableEq, Repr

/-- The observation of one state. -/
def State.observation (s : State) : Observation :=
  { emissions := s.delivered, faults := s.faults }

/-- The observation of at most `k` steps from a state. A fault that stops the machine enters the record; the step that raises it makes no
emission (R203, U2 to U4: no byte is processed), so none is lost. -/
def observe : Nat → State → Observation
  | 0, s => s.observation
  | k + 1, s =>
    match step s with
    | .next t => observe k t
    | .fault r => (recordFault r s).observation
    | .refused _ => s.observation

end Sys2Proof.Machine
end

