-- ==== Sys2Proof/Certificates/Slice0/Obligations.lean ====
section
/-! DEFINITION. The statements for the provers. Each docstring names the rule of spec/ it formalises. -/

open Sys2Proof Sys2Proof.Machine

/-! ### Configuration and registers -/

/-- R13, D26: building a block answers the parameters exactly when they are well formed (the three control values pairwise distinct,
MAX_PACKET_LEN >= 2), and refuses the others. -/
def Obligations.IllFormedConfigurationIsRefused : Prop :=
  ∀ p : Params,
    ((p.startByte ≠ p.endByte ∧ p.startByte ≠ p.escapeByte ∧ p.endByte ≠ p.escapeByte ∧ 2 ≤ p.maxPacketLen) →
      buildBlock p = .next p) ∧
    (¬ (p.startByte ≠ p.endByte ∧ p.startByte ≠ p.escapeByte ∧ p.endByte ≠ p.escapeByte ∧ 2 ≤ p.maxPacketLen) →
      buildBlock p = .refused .illFormedConfig)

/-- R10, R11, R12: this hardware's constants, CAP = 510, and LEN_W = 9 as the smallest width with 2^w > CAP. -/
def Obligations.ConstantsAndWidths : Prop :=
  Config.params.startByte = 0x02 ∧ Config.params.endByte = 0x03 ∧ Config.params.escapeByte = 0x10 ∧
  Config.params.escapeMask = 0x20 ∧ Config.params.maxPacketLen = 512 ∧ Config.cap = 510 ∧ Config.params.lenW = 9 ∧
  (∀ w : Nat, 2 ^ w > Config.cap ↔ Config.params.lenW ≤ w) ∧ Config.params.wf = true ∧ Config.params.maskClear = true

/-- R12, D8: for every parameter set, LEN_W is the smallest w with 2^w > CAP. -/
def Obligations.LengthWidthIsSmallest : Prop :=
  ∀ (p : Params) (w : Nat), 2 ^ w > p.cap ↔ p.lenW ≤ w

/-- R32, R33: the 9-bit register holds the count exactly: it never wraps, in any state. -/
def Obligations.LengthRegisterHoldsCount : Prop :=
  ∀ s : State, s.lenReg.toNat = s.len.val ∧ s.len.val ≤ Config.cap

/-! ### Reset, create, destroy -/

/-- R46, R120, R121: from any state whatever, CREATE completes with the reset values, keeps its two arguments, leaves the buffer to a
free draw, and makes no emission. The clause about the buffer holds for every draw; the requests and the sink's calls are the
environment's and stay. -/
def Obligations.CreateGivesResetValues : Prop :=
  ∀ (s : State) (k : Sink) (x : Ctx), ∃ t, exec (.create k x) s = .next t ∧
    t.len.val = 0 ∧ t.inPacket = false ∧ t.pendingEscape = false ∧ t.framerState = .idle ∧ t.life = .live ∧
    t.cfg = { sink := k, ctx := x } ∧ (∀ i, readByte t i = Config.bufDraw t.draw i) ∧
    t.out = s.out ∧ t.delivered = s.delivered ∧ t.faults = s.faults ∧ t.inputs = s.inputs ∧ t.sinkCalls = s.sinkCalls

/-- R230, R46: State.reset is a state after Create. The arguments 0, 0 are the model's choice (log entry 2), and so are the model's own
fields: the statement says of it what holds whatever they are. That the fault record starts empty is log entry 7. -/
def Obligations.ResetIsIdleAndLive : Prop :=
  State.reset.IsIdle ∧ State.reset.life = .live ∧ State.reset.inPacket = false ∧ State.reset.pendingEscape = false ∧
  State.reset.delivered = [] ∧ State.reset.faults = [] ∧ State.reset.out = [] ∧ State.reset.buf.wf = true ∧
  (∀ i, readByte State.reset i = Config.bufDraw State.reset.draw i)

/-- R122: DESTROY of a live instance sets `life` to Dead and changes nothing else. -/
def Obligations.DestroyEndsLife : Prop :=
  ∀ s : State, s.life = .live → exec .destroy s = .next { s with life := .dead }

/-- R122, R203: DESTROY before any Create is NotCreated, and a second DESTROY is DoubleDestroy. -/
def Obligations.DestroyFaults : Prop :=
  ∀ s : State, (s.life = .unmade → exec .destroy s = .fault .notCreated) ∧
    (s.life = .dead → exec .destroy s = .fault .doubleDestroy)

/-- R45 over all instructions: an instruction that completes leaves `life` as it was, but for CREATE, which makes it Live from any
value, and DESTROY, which completes on a live instance alone and makes it Dead; WRITE completes on a live instance alone. -/
def Obligations.LifeChangesOnlyByCreateAndDestroy : Prop :=
  ∀ (i : Instr) (s t : State), exec i s = .next t →
    match i with
    | .create _ _ => t.life = .live
    | .destroy => s.life = .live ∧ t.life = .dead
    | .write _ => s.life = .live ∧ t.life = .live
    | _ => t.life = s.life

/-- R44, R31 over all instructions: only CREATE changes `cfg`. -/
def Obligations.ConfigurationFixedByCreate : Prop :=
  ∀ (i : Instr) (s t : State), exec i s = .next t →
    match i with
    | .create k x => t.cfg = { sink := k, ctx := x }
    | _ => t.cfg = s.cfg

/-! ### The five byte operations -/

/-- R152: START opens an empty packet and changes nothing else; a partial packet is discarded silently. -/
def Obligations.StartOpensEmptyPacket : Prop :=
  ∀ s : State, ∃ t, exec .start s = .next t ∧ t.len.val = 0 ∧ t.inPacket = true ∧ t.pendingEscape = false ∧
    (∀ a, readByte t a = readByte s a) ∧
    t = { s with len := t.len, inPacket := t.inPacket, pendingEscape := t.pendingEscape }

/-- R153, R157, R158: END emits the context, the length and the bytes `buf[0..len)` when a packet is open, emits nothing when none is,
and resets the state in both cases; the buffer and everything else stay. -/
def Obligations.EndEmitsThenResets : Prop :=
  ∀ s : State, ∃ t, exec .endPacket s = .next t ∧ t.len.val = 0 ∧ t.inPacket = false ∧ t.pendingEscape = false ∧
    (s.inPacket = true →
      t.out = s.out ++ [{ ctx := s.cfg.ctx, len := s.len.val, data := (List.range s.len.val).map (readByte s) }]) ∧
    (s.inPacket = false → t.out = s.out) ∧
    (∀ a, readByte t a = readByte s a) ∧
    t = { s with len := t.len, inPacket := t.inPacket, pendingEscape := t.pendingEscape, out := t.out }

/-- R154: ESC sets `pending_escape` and changes nothing else. -/
def Obligations.EscSetsPendingOnly : Prop :=
  ∀ s : State, exec .esc s = .next { s with pendingEscape := true }

/-- R155, R156: DATA drops its byte outside a packet, overflows a full packet into IDLE, and otherwise stores the byte at `buf[len]` and
counts it; every other entry of the buffer and every other field stays. The byte is any of the 253 values R93 allows DATA. -/
def Obligations.DataAppendsItsByte : Prop :=
  ∀ (b : Byte) (s : State), (Instr.data b).wellFormed Config.params = true →
    (s.inPacket = false → exec (.data b) s = .next s) ∧
    (s.inPacket = true → s.len.val = Config.cap → ∃ t, exec (.data b) s = .next t ∧
      t.len.val = 0 ∧ t.inPacket = false ∧ t.pendingEscape = false ∧ (∀ a, readByte t a = readByte s a) ∧
      t = { s with len := t.len, inPacket := t.inPacket, pendingEscape := t.pendingEscape }) ∧
    (s.inPacket = true → s.len.val < Config.cap → ∃ t, exec (.data b) s = .next t ∧
      t.len.val = s.len.val + 1 ∧ readByte t s.len.val = b ∧ (∀ a, a ≠ s.len.val → readByte t a = readByte s a) ∧
      t = { s with len := t.len, buf := t.buf })

/-- R151, R95, R156: ESCAPED_DATA does with `b AND 0xDF` what DATA does with its byte, and clears `pending_escape` in every case. -/
def Obligations.EscapedDataAppendsUnescapedByte : Prop :=
  ∀ (b : Byte) (s : State),
    (s.inPacket = false → exec (.escapedData b) s = .next { s with pendingEscape := false }) ∧
    (s.inPacket = true → s.len.val = Config.cap → ∃ t, exec (.escapedData b) s = .next t ∧
      t.len.val = 0 ∧ t.inPacket = false ∧ t.pendingEscape = false ∧ (∀ a, readByte t a = readByte s a) ∧
      t = { s with len := t.len, inPacket := t.inPacket, pendingEscape := t.pendingEscape }) ∧
    (s.inPacket = true → s.len.val < Config.cap → ∃ t, exec (.escapedData b) s = .next t ∧
      t.len.val = s.len.val + 1 ∧ t.pendingEscape = false ∧ readByte t s.len.val = b &&& 0xDF ∧
      (∀ a, a ≠ s.len.val → readByte t a = readByte s a) ∧
      t = { s with len := t.len, buf := t.buf, pendingEscape := t.pendingEscape })

/-- R166, R21, R150: whatever the state, the instruction that any byte decodes to completes, adds at most one emission, and changes
none of life, cfg, the delivered record, the fault record, the draw, the requests and the sink's calls. -/
def Obligations.EveryByteCompletes : Prop :=
  ∀ (s : State) (b : Byte), ∃ t, exec (decodeByte s.pendingEscape b) s = .next t ∧
    (t.out = s.out ∨ ∃ e, t.out = s.out ++ [e]) ∧
    t.life = s.life ∧ t.cfg = s.cfg ∧ t.delivered = s.delivered ∧ t.faults = s.faults ∧ t.draw = s.draw ∧ t.inputs = s.inputs ∧
    t.sinkCalls = s.sinkCalls

/-- R150: "Step neither reads nor writes `life` or `cfg.sink`": two runs of one per-byte operation from states that differ in these two
alone give states that differ in these two alone. -/
def Obligations.ByteOperationsIgnoreLifeAndSink : Prop :=
  ∀ (i : Instr) (s t : State) (l : Life) (k : Sink), i.byteClass?.isSome = true → exec i s = .next t →
    exec i { s with life := l, cfg := { s.cfg with sink := k } } =
      .next { t with life := l, cfg := { t.cfg with sink := k } }

/-- R157 over all per-byte operations: an emission is made by END with a packet open, and by nothing else. -/
def Obligations.OnlyEndEmits : Prop :=
  ∀ (i : Instr) (s t : State), i.byteClass?.isSome = true → exec i s = .next t →
    (t.out ≠ s.out ↔ i = .endPacket ∧ s.inPacket = true)

/-- R61, R42 over all instructions but WRITE (which has a statement of its own): the buffer is written by an appending operation that
stores, at `buf[len]` alone, and by no other; CREATE leaves it to a fresh draw (R46), and the clause holds for every draw. -/
def Obligations.OnlyAppendWritesBuffer : Prop :=
  ∀ (i : Instr) (s t : State) (a : Nat), (∀ c, i ≠ .write c) → exec i s = .next t →
    match i with
    | .data _ => ¬ (s.inPacket = true ∧ s.len.val < Config.cap ∧ a = s.len.val) → readByte t a = readByte s a
    | .escapedData _ => ¬ (s.inPacket = true ∧ s.len.val < Config.cap ∧ a = s.len.val) → readByte t a = readByte s a
    | .create _ _ => readByte t a = Config.bufDraw t.draw a
    | _ => readByte t a = readByte s a

/-- R33: a per-byte operation leaves `len` as it is, sets it to 0, or increases it by exactly 1; and it increases it only in an
appending operation that stores, with a packet open and `len < CAP`. -/
def Obligations.LengthGrowsByOneOnlyInAppend : Prop :=
  ∀ (i : Instr) (s t : State), i.byteClass?.isSome = true → exec i s = .next t →
    t.len.val = s.len.val ∨ t.len.val = 0 ∨
      (t.len.val = s.len.val + 1 ∧ s.inPacket = true ∧ s.len.val < Config.cap ∧ ∃ b, i = .data b ∨ i = .escapedData b)

/-- R35, INV3 of R37: after a byte step `pending_escape` is 1 exactly if the byte was decoded as ESC. -/
def Obligations.PendingEscapeAfterEscOnly : Prop :=
  ∀ (s : State) (b : Byte), ∃ t, exec (decodeByte s.pendingEscape b) s = .next t ∧
    (t.pendingEscape = true ↔ s.pendingEscape = false ∧ b = 0x10)

/-- R161, step by step: whenever a packet is open after a byte step, its bytes are none after START, and otherwise the bytes before
followed by the decoded value the byte carries, if it carries one. -/
def Obligations.OpenPacketHoldsDecodedValues : Prop :=
  ∀ (s t : State) (b : Byte), exec (decodeByte s.pendingEscape b) s = .next t → t.inPacket = true →
    t.packet = if classify Config.params s.pendingEscape b = .start then []
      else s.packet ++ (operand Config.params (classify Config.params s.pendingEscape b) b).toList

/-- R159: the transition table, row by row, from every state satisfying INV2: the next state's name, its length, what is stored and
whether a packet is emitted. -/
def Obligations.TransitionTable : Prop :=
  ∀ (s : State) (b : Byte), s.Inv2 → ∃ t, exec (decodeByte s.pendingEscape b) s = .next t ∧
    match s.framerState with
    | .idle =>
      if b = 0x02 then t.framerState = .accumulating ∧ t.len.val = 0 ∧ t.out = s.out
      else if b = 0x03 then t.framerState = .idle ∧ t.len.val = 0 ∧ t.out = s.out
      else if b = 0x10 then t.framerState = .idleEscaped ∧ t.len.val = 0 ∧ t.out = s.out
      else t = s
    | .idleEscaped => t.framerState = .idle ∧ t.len.val = 0 ∧ t.out = s.out ∧ t.buf = s.buf
    | .accumulating =>
      if b = 0x02 then t.framerState = .accumulating ∧ t.len.val = 0 ∧ t.out = s.out
      else if b = 0x03 then t.framerState = .idle ∧ t.len.val = 0 ∧
        t.out = s.out ++ [{ ctx := s.cfg.ctx, len := s.len.val, data := s.packet }]
      else if b = 0x10 then t.framerState = .escaped ∧ t.len = s.len ∧ t.out = s.out
      else if s.len.val < Config.cap then
        t.framerState = .accumulating ∧ t.len.val = s.len.val + 1 ∧ readByte t s.len.val = b ∧ t.out = s.out
      else t.framerState = .idle ∧ t.len.val = 0 ∧ t.out = s.out
    | .escaped =>
      if s.len.val < Config.cap then
        t.framerState = .accumulating ∧ t.len.val = s.len.val + 1 ∧ readByte t s.len.val = b &&& 0xDF ∧ t.out = s.out
      else t.framerState = .idle ∧ t.len.val = 0 ∧ t.out = s.out

/-! ### Write -/

/-- R123: WRITE before any Create is NotCreated, and WRITE after Destroy is UseAfterDestroy, whatever the chunk. On a live instance,
WRITE of the empty chunk changes nothing, and WRITE of a nonempty chunk executes the instruction its first byte decodes to, delivers what
that emitted, and only then goes on with the rest of the chunk. -/
def Obligations.WriteTakesBytesInOrder : Prop :=
  ∀ s : State,
    (s.life = .unmade → ∀ c, exec (.write c) s = .fault .notCreated) ∧
    (s.life = .dead → ∀ c, exec (.write c) s = .fault .useAfterDestroy) ∧
    (s.life = .live → exec (.write []) s = .next s ∧
      ∀ (b : Byte) (c : List Byte), exec (.write (b :: c)) s =
        andThen (exec (decodeByte s.pendingEscape b) s) (fun t => exec (.write c) (deliverOut t)))

/-- R123, R126, R128: on a live instance with nothing undelivered, WRITE completes: the state is the fold of Step over the chunk, every
emission the fold made has been delivered once, in order, to `cfg.sink`, and the fault record gains one ReentrantCall for each call the
sink made meanwhile (R129, U5; the list of coming calls is the model's, log entry 6), so it is unchanged for a sink that keeps its contract. -/
def Obligations.WriteCompletesAsFoldOfStep : Prop :=
  ∀ (s : State) (c : List Byte), s.Ready →
    exec (.write c) s = .next { feed s c with
      out := []
      delivered := s.delivered ++ (feed s c).out.map (fun e => { sink := s.cfg.sink, emission := e })
      faults := s.faults ++ List.replicate (callsDuring s.sinkCalls (feed s c).out.length) .reentrantCall
      sinkCalls := s.sinkCalls.drop (feed s c).out.length } ∧
    (s.QuietSink → callsDuring s.sinkCalls (feed s c).out.length = 0)

/-- R61, R67 for WRITE: an entry of the buffer that a chunk changes is one that some byte of the chunk appended to: a packet was open
with `len` at that entry, inside the buffer, just before that byte. -/
def Obligations.WriteStoresOnlyWhereAppended : Prop :=
  ∀ (s t : State) (c : List Byte) (a : Nat), s.Ready → exec (.write c) s = .next t → readByte t a ≠ readByte s a →
    ∃ (before after : List Byte) (b : Byte), c = before ++ b :: after ∧ (feed s before).inPacket = true ∧
      (feed s before).len.val = a ∧ a < Config.cap ∧
      (operand Config.params (classify Config.params (feed s before).pendingEscape b) b).isSome = true

/-- R129, R203, U5 (`refuse`): calls the sink makes on the instance during the deliveries of a WRITE are refused and do nothing, whichever
operations they are: the WRITE completes, and its next state is the one with no call made, but for one ReentrantCall recorded for each
call in the deliveries it causes. Which calls come is environment input, the model's field `sinkCalls` (log entry 6, DESIGN CHOICE);
that the machine goes on is the treatment `refuse` of U5 (log entry 7). -/
def Obligations.ReentrantCallIsRefused : Prop :=
  ∀ (s : State) (c : List Byte), s.Ready → ∃ t, exec (.write c) s = .next t ∧
    exec (.write c) { s with sinkCalls := [] } = .next { t with sinkCalls := [], faults := s.faults } ∧
    t.faults = s.faults ++
      List.replicate (((s.sinkCalls.take (t.delivered.length - s.delivered.length)).map List.length).sum) .reentrantCall ∧
    t.sinkCalls = s.sinkCalls.drop (t.delivered.length - s.delivered.length)

/-- R126: chunk-boundary transparency, from any state and for any two chunks, faults included. -/
def Obligations.ChunkBoundariesAreInvisible : Prop :=
  ∀ (s : State) (a b : List Byte), exec (.write (a ++ b)) s = andThen (exec (.write a) s) (exec (.write b))

/-- R127: the source's look-ahead scan of a chunk gives the same state and the same emissions as the per-byte form, from any state. -/
def Obligations.LookAheadFormAgrees : Prop :=
  ∀ (s : State) (c : List Byte), lookAheadFeed s c = feed s c

/-- R97: ESC followed by any byte X, control value or not, is one decoded byte with the value `X AND 0xDF`: what is left is what appending
that value leaves (Append of R156, the shared operation), and nothing is emitted. -/
def Obligations.EscapePairIsOneByte : Prop :=
  ∀ (s : State) (x : Byte), s.Ready → s.pendingEscape = false →
    exec (.write [0x10, x]) s = .next (append (x &&& 0xDF) s)

/-- R167: from IDLE, WRITE of any stream delivers the payloads that the declarative token form gives, in order, and leaves `in_packet`,
`len`, the packet's bytes and `pending_escape` as that form says. -/
def Obligations.DeclarativeFormAgrees : Prop :=
  ∀ (s : State) (c : List Byte), s.Ready → s.IsIdle → ∃ t, exec (.write c) s = .next t ∧
    t.delivered = s.delivered ++ (emittedBy c).map s.deliveryOf ∧
    (match openAfter (tokenize c).reverse with
      | some d => t.inPacket = true ∧ t.len.val = d.length ∧ t.packet = d
      | none => t.inPacket = false ∧ t.len.val = 0) ∧
    (t.pendingEscape = true ↔ (tokenize c).getLast? = some .dangling)

/-- R103: round trip. A payload of at most CAP bytes, framed by the sender and written to an idle decoder, is emitted once, unchanged,
and leaves the decoder in IDLE. -/
def Obligations.FrameRoundTrip : Prop :=
  ∀ (s : State) (payload : List Byte), s.Ready → s.IsIdle → payload.length ≤ Config.cap →
    ∃ t, exec (.write (frame Config.params payload)) s = .next t ∧
      t.delivered = s.delivered ++ [s.deliveryOf payload] ∧ t.IsIdle

/-- R71, P5: the frames of any list of payloads of at most CAP bytes, concatenated in one stream, yield one emission each, in order. -/
def Obligations.ConcatenatedFramesInOrder : Prop :=
  ∀ (s : State) (payloads : List (List Byte)), s.Ready → s.IsIdle → (∀ p ∈ payloads, p.length ≤ Config.cap) →
    ∃ t, exec (.write (payloads.flatMap (frame Config.params))) s = .next t ∧
      t.delivered = s.delivered ++ payloads.map s.deliveryOf ∧ t.IsIdle

/-- R162, P4: the frame of a payload of more than CAP bytes is not emitted, and a well-formed frame that follows it is. -/
def Obligations.TooLongPacketIsDropped : Prop :=
  ∀ (s : State) (long payload : List Byte), s.Ready → s.IsIdle → Config.cap < long.length → payload.length ≤ Config.cap →
    ∃ t, exec (.write (frame Config.params long)) s = .next t ∧ t.delivered = s.delivered ∧ t.IsIdle ∧
      ∃ u, exec (.write (frame Config.params payload)) t = .next u ∧ u.delivered = s.delivered ++ [s.deliveryOf payload] ∧ u.IsIdle

/-- R163: in the window after an overflow (the state is IDLE) everything is dropped while no byte is decoded as START: a stray END
and an escaped 0x02 included. -/
def Obligations.DropWindowEmitsNothing : Prop :=
  ∀ (s : State) (c : List Byte), s.Ready → s.IsIdle → Token.opening ∉ tokenize c →
    ∃ t, exec (.write c) s = .next t ∧ t.delivered = s.delivered ∧ t.inPacket = false ∧ t.len.val = 0 ∧ t.buf = s.buf

/-- R164: the empty packet `02 03` from IDLE is emitted with length 0. -/
def Obligations.EmptyPacketIsEmitted : Prop :=
  ∀ s : State, s.Ready → s.IsIdle → ∃ t, exec (.write [0x02, 0x03]) s = .next t ∧
    t.delivered = s.delivered ++ [{ sink := s.cfg.sink, emission := { ctx := s.cfg.ctx, len := 0, data := [] } }] ∧ t.IsIdle

/-- R165: no terminal state: END leads back to IDLE when no escape is pending, any byte followed by END does when one is, and START
opens a packet when none is pending. -/
def Obligations.IdleIsAlwaysReachable : Prop :=
  ∀ s : State, s.Ready →
    (s.pendingEscape = false → ∃ t, exec (.write [0x03]) s = .next t ∧ t.IsIdle) ∧
    (s.pendingEscape = true → ∀ x : Byte, ∃ t, exec (.write [x, 0x03]) s = .next t ∧ t.IsIdle) ∧
    (s.pendingEscape = false → ∃ t, exec (.write [0x02]) s = .next t ∧ t.framerState = .accumulating ∧ t.len.val = 0)

/-- R161, R42: stale entries and the free draw of Create never reach an emission: two instances that agree on all else stop with the same
fault on the same chunk, or both complete, with the same deliveries and faults recorded, and still agree on all else. -/
def Obligations.StaleBytesNeverObserved : Prop :=
  ∀ (s t : State) (c : List Byte), s.SameButStale t →
    match exec (.write c) s, exec (.write c) t with
    | .next s', .next t' => s'.observation = t'.observation ∧ s'.SameButStale t'
    | .fault r, .fault r' => r = r'
    | _, _ => False

/-! ### The step of the machine -/

/-- R125, R130, R131, R213: a step performs the host's oldest request: an offered byte is the life check of Write, then the instruction
the byte decodes to, then the delivery of what it emitted; a host transaction is its instruction; with no request waiting the
state is held. A word placed by `withFetchWord` is that next request. -/
def Obligations.StepRunsDecodedInstruction : Prop :=
  (∀ s : State, s.inputs = [] → step s = .next s) ∧
  (∀ (s : State) (b : Byte) (rest : List Request), s.inputs = .byte b :: rest →
    (s.life = .live → step s = andThen (exec (decodeByte s.pendingEscape b) { s with inputs := rest }) (fun t => .next (deliverOut t))) ∧
    (s.life = .unmade → step s = .fault .notCreated) ∧
    (s.life = .dead → step s = .fault .useAfterDestroy)) ∧
  (∀ (s : State) (o : HostOp) (rest : List Request), s.inputs = .op o :: rest →
    step s = exec o.toInstr { s with inputs := rest }) ∧
  (∀ (s : State) (b : Byte), s.life = .live →
    step (s.withFetchWord 8 b.toNat) = andThen (exec (decodeByte s.pendingEscape b) s) (fun t => .next (deliverOut t)))

/-- R130: offering one byte is `Write([b])`, in every state. -/
def Obligations.OfferedByteIsWriteOfOne : Prop :=
  ∀ (s : State) (b : Byte) (rest : List Request), s.inputs = .byte b :: rest →
    step s = exec (.write [b]) { s with inputs := rest }

/-- R231, R203, R232: from any power-up state, a step that performs anything but Create faults with NotCreated, and Create gives a live,
idle instance. -/
def Obligations.PowerUpWaitsForCreate : Prop :=
  ∀ (s : State) (rest : List Request), s.IsPowerUp →
    (∀ b, s.inputs = .byte b :: rest → step s = .fault .notCreated) ∧
    (s.inputs = .op .destroy :: rest → step s = .fault .notCreated) ∧
    (∀ c, s.inputs = .op (.write c) :: rest → step s = .fault .notCreated) ∧
    (∀ k x, s.inputs = .op (.create k x) :: rest → ∃ t, step s = .next t ∧ t.life = .live ∧ t.IsIdle ∧ t.inputs = rest)

/-- R37, R160, R161: the invariant (canonical buffer inside 0..CAP-1, nothing undelivered, INV2, every byte of an open packet written since
Create) is kept by every step, from every state that has it. -/
def Obligations.StepKeepsInvariant : Prop :=
  ∀ s t : State, s.Inv → step s = .next t → t.Inv

/-- R46, R37: the state after reset has the invariant, and so has the state CREATE gives from any state with nothing undelivered. -/
def Obligations.ResetHasInvariant : Prop :=
  State.reset.Inv ∧ ∀ (s : State) (k : Sink) (x : Ctx), s.out = [] → ∃ t, exec (.create k x) s = .next t ∧ t.Inv

/-- R69, R71, R77, R157: a step only adds to the delivered record; what it adds goes to the sink and carries the context of the last
Create, and each added event has as many bytes as its length says, at most CAP. -/
def Obligations.DeliveredRecordOnlyGrows : Prop :=
  ∀ s t : State, s.out = [] → step s = .next t → ∃ added : List Delivery, t.delivered = s.delivered ++ added ∧
    ∀ d ∈ added, d.sink = s.cfg.sink ∧ d.emission.ctx = s.cfg.ctx ∧ d.emission.data.length = d.emission.len ∧
      d.emission.len ≤ Config.cap

/-- R203, R166: the machine stops exactly where R203 says: with NotCreated when Write (an offered byte included) or Destroy meets an Unmade
instance, with UseAfterDestroy when Write meets a Dead one, with DoubleDestroy when Destroy does; never with ReentrantCall (U5: that one
is recorded and the machine goes on, log entry 7); no step is refused. -/
def Obligations.StepFaultsExactlyAsListed : Prop :=
  ∀ s : State,
    (step s = .fault .notCreated ↔ s.life = .unmade ∧
      ∃ rest, (∃ b, s.inputs = .byte b :: rest) ∨ (∃ c, s.inputs = .op (.write c) :: rest) ∨ s.inputs = .op .destroy :: rest) ∧
    (step s = .fault .useAfterDestroy ↔ s.life = .dead ∧
      ∃ rest, (∃ b, s.inputs = .byte b :: rest) ∨ ∃ c, s.inputs = .op (.write c) :: rest) ∧
    (step s = .fault .doubleDestroy ↔ s.life = .dead ∧ ∃ rest, s.inputs = .op .destroy :: rest) ∧
    step s ≠ .fault .reentrantCall ∧ ∀ r : Refusal, step s ≠ .refused r

/-- R203 ("The model records a fault only when the host breaks the contract"), R212 and program D ("The fault is never cleared"): a step that
answers a next state keeps the whole fault record, adds nothing to it but one ReentrantCall for each call the sink makes during the
deliveries of that step (log entry 6), and so adds nothing for a sink that keeps its contract. -/
def Obligations.FaultRecordOnlyGrows : Prop :=
  ∀ s t : State, s.out = [] → step s = .next t →
    t.faults = s.faults ++
      List.replicate (callsDuring s.sinkCalls (t.delivered.length - s.delivered.length)) .reentrantCall ∧
    (s.QuietSink → t.faults = s.faults)

/-! ### Encoding -/

/-- R90, R92, R94: decode and encode agree: for any well-formed parameters and any well-formed per-byte instruction, with its operand
at any value, the encoding is one byte, and that byte under the instruction's value of `pending_escape` decodes to it. -/
def Obligations.DecodeOfEncode : Prop :=
  ∀ (p : Params) (i : Instr), p.wf = true → i.wellFormed p = true → i.byteClass?.isSome = true →
    ∃ b : Byte, encodeWith p i = some [b] ∧ decodeByteWith p i.decodeContext b = i

/-- R91, R92, R99: every byte under either value of `pending_escape` decodes to one well-formed instruction, whose encoding is that byte
and whose decode context is that value. -/
def Obligations.EncodeOfDecode : Prop :=
  ∀ (p : Params) (pe : Bool) (b : Byte),
    encodeWith p (decodeByteWith p pe b) = some [b] ∧ (decodeByteWith p pe b).wellFormed p = true ∧
    (decodeByteWith p pe b).decodeContext = pe

/-- R92, R93: words written out from the decode table: START 00000010, END 00000011, ESC 00010000, DATA and ESCAPED_DATA; and DATA covers
253 of the 256 byte values. -/
def Obligations.DecodedWords : Prop :=
  decode false [0b00000010#8] = .ok (.start, []) ∧ decode false [0b00000011#8] = .ok (.endPacket, []) ∧
  decode false [0b00010000#8] = .ok (.esc, []) ∧ decode false [0b00000000#8] = .ok (.data 0x00, []) ∧
  decode false [0b11111111#8, 0x02] = .ok (.data 0xFF, [0x02]) ∧ decode true [0b00000010#8] = .ok (.escapedData 0x02, []) ∧
  decode true [0b00110000#8] = .ok (.escapedData 0x30, []) ∧ decode true [] = .error .noByte ∧
  ((List.range 256).countP fun n => decodeByte false (BitVec.ofNat 8 n) == .data (BitVec.ofNat 8 n)) = 253

/-- R91, R92: the decode table over every byte under either value of `pending_escape`, in its priority order. -/
def Obligations.ClassesOfTheDecodeTable : Prop :=
  (∀ b : Byte, decodeByte true b = .escapedData b) ∧
  (∀ b : Byte, decodeByte false b =
    if b = 0x02 then .start else if b = 0x03 then .endPacket else if b = 0x10 then .esc else .data b)

/-- R95: the unescape transform is `b AND 0xDF`: bit 5 of the result is 0 and every other bit is that of b. -/
def Obligations.UnescapeClearsBitFive : Prop :=
  ∀ b : Byte, unescape Config.params b = b &&& 0xDF ∧
    ∀ i : Nat, (unescape Config.params b).getLsbD i = (b.getLsbD i && i != 5)

/-- R96: two bytes unescape to the same value exactly if they are equal but for bit 5; and the escaped forms of the control values, and
the control values themselves, give the control values. -/
def Obligations.UnescapeConsequences : Prop :=
  (∀ b c : Byte, unescape Config.params b = unescape Config.params c ↔ b ||| 0x20 = c ||| 0x20) ∧
  unescape Config.params 0x22 = 0x02 ∧ unescape Config.params 0x23 = 0x03 ∧ unescape Config.params 0x30 = 0x10 ∧
  unescape Config.params 0x02 = 0x02 ∧ unescape Config.params 0x03 = 0x03 ∧ unescape Config.params 0x10 = 0x10 ∧
  unescape Config.params 0x20 = 0x00 ∧ unescape Config.params 0xFF = 0xDF ∧ unescape Config.params 0x42 = 0x42 ∧
  unescape Config.params 0x62 = 0x42

/-- R101, R103 at the level of the code, for any parameters that meet R13's round-trip condition and under either reading of the
unescape transform (C1, D20): what a sender escapes, a receiver unescapes to the same byte. -/
def Obligations.SenderEscapesReceiverUnescapes : Prop :=
  ∀ (p : Params) (v : Byte), p.maskClear = true →
    (p.isControl v = true → escByte p v = [p.escapeByte, v ||| p.escapeMask] ∧ unescape p (v ||| p.escapeMask) = v) ∧
    (p.isControl v = false → escByte p v = [v])

/-- R104: the wire length of a frame is 2 + |p| + e, e the number of payload bytes equal to 0x02, 0x03 or 0x10; so the frame of a payload
of at most CAP bytes has at most 2 + 2*CAP = 1022 bytes, and a payload of CAP bytes 0x02 reaches that. -/
def Obligations.FrameLength : Prop :=
  (∀ payload : List Byte, (frame Config.params payload).length =
    2 + payload.length + payload.countP (fun b => b == 0x02 || b == 0x03 || b == 0x10)) ∧
  (∀ payload : List Byte, payload.length ≤ Config.cap → (frame Config.params payload).length ≤ 1022) ∧
  (frame Config.params (List.replicate Config.cap 0x02)).length = 1022

/-! ### Buffer, recovery, instances, signals -/

/-- 20_memory.md R60, R61: the written cells are canonical data: two buffers in canonical form that hold the same byte at every index
are the same list. -/
def Obligations.CanonicalBufferIsUnique : Prop :=
  ∀ m n : Memory, m.wf = true → n.wf = true → (∀ a, m.read? a = n.read? a) → m = n

/-- R206: at most one recovery condition occurs per byte step. -/
def Obligations.AtMostOneRecovery : Prop :=
  ∀ (s : State) (b : Byte) (last : Bool) (r r' : Recovery),
    r.detected s b last = true → r'.detected s b last = true → r = r'

/-- R201, R202: the effect of each recovery condition in the step that detects it: no emission in any of them. -/
def Obligations.RecoveryEffects : Prop :=
  ∀ (s : State) (b : Byte) (last : Bool) (r : Recovery), s.Inv2 → r.detected s b last = true →
    ∃ t, exec (decodeByte s.pendingEscape b) s = .next t ∧ t.out = s.out ∧ t.buf = s.buf ∧
      match r with
      | .strayEnd => t.framerState = .idle ∧ t.len.val = 0
      | .overflow => t.framerState = .idle ∧ t.len.val = 0
      | .restart => t.framerState = .accumulating ∧ t.len.val = 0
      | .dropOutside => t = { s with pendingEscape := false }
      | .deferredEscape => t = { s with pendingEscape := true }

/-- R47, R211, D25: whatever becomes of the instance that steps, every other instance stays as it was and can go on. That one takes its own
step; a fault stops it alone (log entries 7 and 14), with its state kept and the fault at the end of its own record; a stopped one stays so. -/
def Obligations.InstancesAreIndependent : Prop :=
  ∀ (is : Instances) (h : Fin is.length),
    (stepInstance is h).length = is.length ∧ (∀ j : Nat, j ≠ h.val → (stepInstance is h)[j]? = is[j]?) ∧
    ((is.get h).stopped = true → stepInstance is h = is) ∧
    ((is.get h).stopped = false →
      (∀ t, step (is.get h).state = .next t → (stepInstance is h)[h.val]? = some { state := t, stopped := false }) ∧
      (∀ r, step (is.get h).state = .fault r → (stepInstance is h)[h.val]? =
        some { state := { (is.get h).state with faults := (is.get h).state.faults ++ [r] }, stopped := true }))

/-- R132, R130, R125: with `in_valid` alone asserted the block takes the byte as `Write([b])` does; with none asserted it holds its state;
with more than one asserted the model refuses. -/
def Obligations.SignalsDriveTransactions : Prop :=
  ∀ (w : Nat) (k : Sink) (p : InPins w) (s : State),
    (p.create = false → p.destroy = false → p.inValid = true → pinStep k p s = exec (.write [p.inByte]) s) ∧
    (p.create = true → p.destroy = false → p.inValid = false → pinStep k p s = exec (.create k p.ctxIn.toNat) s) ∧
    (p.create = false → p.destroy = true → p.inValid = false → pinStep k p s = exec .destroy s) ∧
    (p.create = false → p.destroy = false → p.inValid = false → pinStep k p s = .next s) ∧
    ((p.create && p.destroy || p.create && p.inValid || p.destroy && p.inValid) = true →
      pinStep k p s = .refused .overlappingSignals)

/-- R132: from a state with nothing undelivered, after the byte END with a packet open, `out_valid` is 1 and the other output signals
carry the context, the length as 9 bits and the packet's bytes; after any other accepted byte `out_valid` is 0. -/
def Obligations.OutputSignalsShowEmission : Prop :=
  ∀ (w : Nat) (s : State) (b : Byte), s.Ready → ∃ t, exec (.write [b]) s = .next t ∧
    if s.pendingEscape = false ∧ b = 0x03 ∧ s.inPacket = true then
      (outPins w s t).outValid = true ∧ (outPins w s t).outCtx = BitVec.ofNat w s.cfg.ctx ∧
      (outPins w s t).outLen.toNat = s.len.val ∧ (outPins w s t).outData = s.packet
    else (outPins w s t).outValid = false
end

