-- ==== Sys2Proof/Laws/State.lean ====
section
/-! SUPPORT. What each named update of State leaves in each field: one lemma per field per update. -/

namespace Sys2Proof.Machine

@[simp] theorem stateReset_buf (s : State) : (stateReset s).buf = s.buf := rfl
@[simp] theorem stateReset_len (s : State) : (stateReset s).len = ⟨0, Nat.succ_pos _⟩ := rfl
@[simp] theorem stateReset_inPacket (s : State) : (stateReset s).inPacket = false := rfl
@[simp] theorem stateReset_pendingEscape (s : State) : (stateReset s).pendingEscape = false := rfl
@[simp] theorem stateReset_life (s : State) : (stateReset s).life = s.life := rfl
@[simp] theorem stateReset_cfg (s : State) : (stateReset s).cfg = s.cfg := rfl
@[simp] theorem stateReset_out (s : State) : (stateReset s).out = s.out := rfl
@[simp] theorem stateReset_delivered (s : State) : (stateReset s).delivered = s.delivered := rfl
@[simp] theorem stateReset_faults (s : State) : (stateReset s).faults = s.faults := rfl
@[simp] theorem stateReset_draw (s : State) : (stateReset s).draw = s.draw := rfl
@[simp] theorem stateReset_inputs (s : State) : (stateReset s).inputs = s.inputs := rfl
@[simp] theorem stateReset_sinkCalls (s : State) : (stateReset s).sinkCalls = s.sinkCalls := rfl

@[simp] theorem openPacket_buf (s : State) : (openPacket s).buf = s.buf := rfl
@[simp] theorem openPacket_len (s : State) : (openPacket s).len = ⟨0, Nat.succ_pos _⟩ := rfl
@[simp] theorem openPacket_inPacket (s : State) : (openPacket s).inPacket = true := rfl
@[simp] theorem openPacket_pendingEscape (s : State) : (openPacket s).pendingEscape = false := rfl
@[simp] theorem openPacket_life (s : State) : (openPacket s).life = s.life := rfl
@[simp] theorem openPacket_cfg (s : State) : (openPacket s).cfg = s.cfg := rfl
@[simp] theorem openPacket_out (s : State) : (openPacket s).out = s.out := rfl
@[simp] theorem openPacket_delivered (s : State) : (openPacket s).delivered = s.delivered := rfl
@[simp] theorem openPacket_faults (s : State) : (openPacket s).faults = s.faults := rfl
@[simp] theorem openPacket_draw (s : State) : (openPacket s).draw = s.draw := rfl
@[simp] theorem openPacket_inputs (s : State) : (openPacket s).inputs = s.inputs := rfl
@[simp] theorem openPacket_sinkCalls (s : State) : (openPacket s).sinkCalls = s.sinkCalls := rfl

@[simp] theorem setPendingEscape_buf (v : Bool) (s : State) : (setPendingEscape v s).buf = s.buf := rfl
@[simp] theorem setPendingEscape_len (v : Bool) (s : State) : (setPendingEscape v s).len = s.len := rfl
@[simp] theorem setPendingEscape_inPacket (v : Bool) (s : State) : (setPendingEscape v s).inPacket = s.inPacket := rfl
@[simp] theorem setPendingEscape_pendingEscape (v : Bool) (s : State) : (setPendingEscape v s).pendingEscape = v := rfl
@[simp] theorem setPendingEscape_life (v : Bool) (s : State) : (setPendingEscape v s).life = s.life := rfl
@[simp] theorem setPendingEscape_cfg (v : Bool) (s : State) : (setPendingEscape v s).cfg = s.cfg := rfl
@[simp] theorem setPendingEscape_out (v : Bool) (s : State) : (setPendingEscape v s).out = s.out := rfl
@[simp] theorem setPendingEscape_delivered (v : Bool) (s : State) : (setPendingEscape v s).delivered = s.delivered := rfl
@[simp] theorem setPendingEscape_faults (v : Bool) (s : State) : (setPendingEscape v s).faults = s.faults := rfl
@[simp] theorem setPendingEscape_draw (v : Bool) (s : State) : (setPendingEscape v s).draw = s.draw := rfl
@[simp] theorem setPendingEscape_inputs (v : Bool) (s : State) : (setPendingEscape v s).inputs = s.inputs := rfl
@[simp] theorem setPendingEscape_sinkCalls (v : Bool) (s : State) : (setPendingEscape v s).sinkCalls = s.sinkCalls := rfl

@[simp] theorem memWrite_buf (i : Fin Config.cap) (v : Byte) (s : State) : (memWrite i v s).buf = s.buf.write i.val v := rfl
@[simp] theorem memWrite_len (i : Fin Config.cap) (v : Byte) (s : State) : (memWrite i v s).len = s.len := rfl
@[simp] theorem memWrite_inPacket (i : Fin Config.cap) (v : Byte) (s : State) : (memWrite i v s).inPacket = s.inPacket := rfl
@[simp] theorem memWrite_pendingEscape (i : Fin Config.cap) (v : Byte) (s : State) : (memWrite i v s).pendingEscape = s.pendingEscape := rfl
@[simp] theorem memWrite_life (i : Fin Config.cap) (v : Byte) (s : State) : (memWrite i v s).life = s.life := rfl
@[simp] theorem memWrite_cfg (i : Fin Config.cap) (v : Byte) (s : State) : (memWrite i v s).cfg = s.cfg := rfl
@[simp] theorem memWrite_out (i : Fin Config.cap) (v : Byte) (s : State) : (memWrite i v s).out = s.out := rfl
@[simp] theorem memWrite_delivered (i : Fin Config.cap) (v : Byte) (s : State) : (memWrite i v s).delivered = s.delivered := rfl
@[simp] theorem memWrite_faults (i : Fin Config.cap) (v : Byte) (s : State) : (memWrite i v s).faults = s.faults := rfl
@[simp] theorem memWrite_draw (i : Fin Config.cap) (v : Byte) (s : State) : (memWrite i v s).draw = s.draw := rfl
@[simp] theorem memWrite_inputs (i : Fin Config.cap) (v : Byte) (s : State) : (memWrite i v s).inputs = s.inputs := rfl
@[simp] theorem memWrite_sinkCalls (i : Fin Config.cap) (v : Byte) (s : State) : (memWrite i v s).sinkCalls = s.sinkCalls := rfl

@[simp] theorem store_buf (v : Byte) (s : State) (h : s.len.val < Config.cap) : (store v s h).buf = s.buf.write s.len.val v := rfl
@[simp] theorem store_len (v : Byte) (s : State) (h : s.len.val < Config.cap) : (store v s h).len = ⟨s.len.val + 1, Nat.succ_lt_succ h⟩ := rfl
@[simp] theorem store_inPacket (v : Byte) (s : State) (h : s.len.val < Config.cap) : (store v s h).inPacket = s.inPacket := rfl
@[simp] theorem store_pendingEscape (v : Byte) (s : State) (h : s.len.val < Config.cap) : (store v s h).pendingEscape = s.pendingEscape := rfl
@[simp] theorem store_life (v : Byte) (s : State) (h : s.len.val < Config.cap) : (store v s h).life = s.life := rfl
@[simp] theorem store_cfg (v : Byte) (s : State) (h : s.len.val < Config.cap) : (store v s h).cfg = s.cfg := rfl
@[simp] theorem store_out (v : Byte) (s : State) (h : s.len.val < Config.cap) : (store v s h).out = s.out := rfl
@[simp] theorem store_delivered (v : Byte) (s : State) (h : s.len.val < Config.cap) : (store v s h).delivered = s.delivered := rfl
@[simp] theorem store_faults (v : Byte) (s : State) (h : s.len.val < Config.cap) : (store v s h).faults = s.faults := rfl
@[simp] theorem store_draw (v : Byte) (s : State) (h : s.len.val < Config.cap) : (store v s h).draw = s.draw := rfl
@[simp] theorem store_inputs (v : Byte) (s : State) (h : s.len.val < Config.cap) : (store v s h).inputs = s.inputs := rfl
@[simp] theorem store_sinkCalls (v : Byte) (s : State) (h : s.len.val < Config.cap) : (store v s h).sinkCalls = s.sinkCalls := rfl

@[simp] theorem emit_buf (s : State) : (emit s).buf = s.buf := rfl
@[simp] theorem emit_len (s : State) : (emit s).len = s.len := rfl
@[simp] theorem emit_inPacket (s : State) : (emit s).inPacket = s.inPacket := rfl
@[simp] theorem emit_pendingEscape (s : State) : (emit s).pendingEscape = s.pendingEscape := rfl
@[simp] theorem emit_life (s : State) : (emit s).life = s.life := rfl
@[simp] theorem emit_cfg (s : State) : (emit s).cfg = s.cfg := rfl
@[simp] theorem emit_out (s : State) : (emit s).out = s.out ++ [currentEmission s] := rfl
@[simp] theorem emit_delivered (s : State) : (emit s).delivered = s.delivered := rfl
@[simp] theorem emit_faults (s : State) : (emit s).faults = s.faults := rfl
@[simp] theorem emit_draw (s : State) : (emit s).draw = s.draw := rfl
@[simp] theorem emit_inputs (s : State) : (emit s).inputs = s.inputs := rfl
@[simp] theorem emit_sinkCalls (s : State) : (emit s).sinkCalls = s.sinkCalls := rfl

@[simp] theorem recordFault_buf (r : Fault) (s : State) : (recordFault r s).buf = s.buf := rfl
@[simp] theorem recordFault_len (r : Fault) (s : State) : (recordFault r s).len = s.len := rfl
@[simp] theorem recordFault_inPacket (r : Fault) (s : State) : (recordFault r s).inPacket = s.inPacket := rfl
@[simp] theorem recordFault_pendingEscape (r : Fault) (s : State) : (recordFault r s).pendingEscape = s.pendingEscape := rfl
@[simp] theorem recordFault_life (r : Fault) (s : State) : (recordFault r s).life = s.life := rfl
@[simp] theorem recordFault_cfg (r : Fault) (s : State) : (recordFault r s).cfg = s.cfg := rfl
@[simp] theorem recordFault_out (r : Fault) (s : State) : (recordFault r s).out = s.out := rfl
@[simp] theorem recordFault_delivered (r : Fault) (s : State) : (recordFault r s).delivered = s.delivered := rfl
@[simp] theorem recordFault_faults (r : Fault) (s : State) : (recordFault r s).faults = s.faults ++ [r] := rfl
@[simp] theorem recordFault_draw (r : Fault) (s : State) : (recordFault r s).draw = s.draw := rfl
@[simp] theorem recordFault_inputs (r : Fault) (s : State) : (recordFault r s).inputs = s.inputs := rfl
@[simp] theorem recordFault_sinkCalls (r : Fault) (s : State) : (recordFault r s).sinkCalls = s.sinkCalls := rfl

@[simp] theorem place_buf (r : Request) (s : State) : (place r s).buf = s.buf := rfl
@[simp] theorem place_len (r : Request) (s : State) : (place r s).len = s.len := rfl
@[simp] theorem place_inPacket (r : Request) (s : State) : (place r s).inPacket = s.inPacket := rfl
@[simp] theorem place_pendingEscape (r : Request) (s : State) : (place r s).pendingEscape = s.pendingEscape := rfl
@[simp] theorem place_life (r : Request) (s : State) : (place r s).life = s.life := rfl
@[simp] theorem place_cfg (r : Request) (s : State) : (place r s).cfg = s.cfg := rfl
@[simp] theorem place_out (r : Request) (s : State) : (place r s).out = s.out := rfl
@[simp] theorem place_delivered (r : Request) (s : State) : (place r s).delivered = s.delivered := rfl
@[simp] theorem place_faults (r : Request) (s : State) : (place r s).faults = s.faults := rfl
@[simp] theorem place_draw (r : Request) (s : State) : (place r s).draw = s.draw := rfl
@[simp] theorem place_inputs (r : Request) (s : State) : (place r s).inputs = r :: s.inputs := rfl
@[simp] theorem place_sinkCalls (r : Request) (s : State) : (place r s).sinkCalls = s.sinkCalls := rfl

@[simp] theorem createStep_buf (k : Sink) (x : Ctx) (s : State) : (createStep k x s).buf = [] := rfl
@[simp] theorem createStep_len (k : Sink) (x : Ctx) (s : State) : (createStep k x s).len = ⟨0, Nat.succ_pos _⟩ := rfl
@[simp] theorem createStep_inPacket (k : Sink) (x : Ctx) (s : State) : (createStep k x s).inPacket = false := rfl
@[simp] theorem createStep_pendingEscape (k : Sink) (x : Ctx) (s : State) : (createStep k x s).pendingEscape = false := rfl
@[simp] theorem createStep_life (k : Sink) (x : Ctx) (s : State) : (createStep k x s).life = .live := rfl
@[simp] theorem createStep_cfg (k : Sink) (x : Ctx) (s : State) : (createStep k x s).cfg = ⟨k, x⟩ := rfl
@[simp] theorem createStep_out (k : Sink) (x : Ctx) (s : State) : (createStep k x s).out = s.out := rfl
@[simp] theorem createStep_delivered (k : Sink) (x : Ctx) (s : State) : (createStep k x s).delivered = s.delivered := rfl
@[simp] theorem createStep_faults (k : Sink) (x : Ctx) (s : State) : (createStep k x s).faults = s.faults := rfl
@[simp] theorem createStep_draw (k : Sink) (x : Ctx) (s : State) : (createStep k x s).draw = s.draw + 1 := rfl
@[simp] theorem createStep_inputs (k : Sink) (x : Ctx) (s : State) : (createStep k x s).inputs = s.inputs := rfl
@[simp] theorem createStep_sinkCalls (k : Sink) (x : Ctx) (s : State) : (createStep k x s).sinkCalls = s.sinkCalls := rfl

end Sys2Proof.Machine
end

