-- ==== Sys2Proof/Laws/Memory.lean ====
section
/-! SUPPORT. The buffer's laws: read after write, writes elsewhere, and the canonical form. -/

namespace Sys2Proof.Machine

@[simp] theorem Memory.read?_nil (a : Nat) : Memory.read? [] a = none := rfl

theorem Memory.read?_cons (k : Nat) (v : Byte) (m : Memory) (a : Nat) :
    Memory.read? ((k, v) :: m) a = if k = a then some v else Memory.read? m a := rfl

theorem Memory.read?_write (m : Memory) (a : Nat) (v : Byte) (i : Nat) :
    (m.write a v).read? i = if a = i then some v else m.read? i := by
  induction m with
  | nil => simp [Memory.write, Memory.read?_cons]
  | cons c m ih =>
    obtain ⟨k, w⟩ := c
    simp only [Memory.write]
    split
    · simp [Memory.read?_cons]
    · split
      · subst_vars
        by_cases h : k = i <;> simp [Memory.read?_cons, h]
      · by_cases h : k = i
        · subst h
          simp [Memory.read?_cons, show a ≠ k by omega]
        · simp [Memory.read?_cons, h, ih]

/-- A read after a write to the same index gives the byte written. -/
@[simp] theorem Memory.read?_write_self (m : Memory) (a : Nat) (v : Byte) : (m.write a v).read? a = some v := by
  simp [Memory.read?_write]

/-- A write leaves every other index alone. -/
theorem Memory.read?_write_ne (m : Memory) {a i : Nat} (v : Byte) (h : a ≠ i) : (m.write a v).read? i = m.read? i := by
  simp [Memory.read?_write, h]

theorem Memory.rising_cons (a : Nat) (v : Byte) (m : Memory) :
    Memory.rising ((a, v) :: m) = true ↔ (∀ c ∈ m.head?, a < c.1) ∧ Memory.rising m = true := by
  cases m with
  | nil => simp [Memory.rising]
  | cons c m => obtain ⟨b, w⟩ := c; simp [Memory.rising]

theorem Memory.head?_write (m : Memory) (a : Nat) (v : Byte) (k : Nat) (hk : k < a) (h : ∀ c ∈ m.head?, k < c.1) :
    ∀ c ∈ (m.write a v).head?, k < c.1 := by
  cases m with
  | nil => simpa [Memory.write] using hk
  | cons c m =>
    obtain ⟨b, w⟩ := c
    simp only [Memory.write]
    split
    · simpa using hk
    · split
      · simpa using hk
      · simpa using h

theorem Memory.rising_write (m : Memory) (a : Nat) (v : Byte) (h : m.rising = true) : (m.write a v).rising = true := by
  induction m with
  | nil => rfl
  | cons c m ih =>
    obtain ⟨k, w⟩ := c
    have ⟨hk, hm⟩ := (Memory.rising_cons k w m).1 h
    simp only [Memory.write]
    split
    · exact (Memory.rising_cons _ _ _).2 ⟨by simpa, h⟩
    · split
      · subst_vars
        exact (Memory.rising_cons _ _ _).2 ⟨hk, hm⟩
      · exact (Memory.rising_cons _ _ _).2 ⟨Memory.head?_write m a v k (by omega) hk, ih hm⟩

theorem Memory.mem_write (m : Memory) (a : Nat) (v : Byte) (c : Host.Cell) (h : c ∈ m.write a v) : c = (a, v) ∨ c ∈ m := by
  induction m with
  | nil => simpa [Memory.write] using h
  | cons d m ih =>
    obtain ⟨k, w⟩ := d
    simp only [Memory.write] at h
    split at h
    · simpa using h
    · split at h
      · rcases List.mem_cons.1 h with h | h
        · exact .inl h
        · exact .inr (List.mem_cons_of_mem _ h)
      · rcases List.mem_cons.1 h with h | h
        · exact .inr (by simp [h])
        · rcases ih h with h | h
          · exact .inl h
          · exact .inr (List.mem_cons_of_mem _ h)

/-- Writing inside the buffer keeps the canonical form. -/
theorem Memory.wf_write (m : Memory) (a : Nat) (v : Byte) (ha : a < Config.cap) (h : m.wf = true) : (m.write a v).wf = true := by
  simp only [Memory.wf, Bool.and_eq_true, List.all_eq_true, decide_eq_true_eq] at h ⊢
  refine ⟨Memory.rising_write m a v h.1, fun c hc => ?_⟩
  rcases Memory.mem_write m a v c hc with rfl | hc
  · exact ha
  · exact h.2 c hc

theorem Memory.wf_reset : State.reset.buf.wf = true := rfl

theorem memWrite_wf (i : Fin Config.cap) (v : Byte) (s : State) (h : s.buf.wf = true) : (memWrite i v s).buf.wf = true :=
  Memory.wf_write _ _ _ i.isLt h

theorem store_wf (v : Byte) (s : State) (h : s.len.val < Config.cap) (hw : s.buf.wf = true) : (store v s h).buf.wf = true :=
  Memory.wf_write _ _ _ h hw

theorem createStep_wf (k : Sink) (x : Ctx) (s : State) : (createStep k x s).buf.wf = true := rfl

/-- `buf[i]` after a store: the byte at `buf[len]`, and every other entry as before. -/
theorem readByte_store (v : Byte) (s : State) (h : s.len.val < Config.cap) (i : Nat) :
    readByte (store v s h) i = if s.len.val = i then v else readByte s i := by
  simp only [readByte, store_buf, store_draw, Memory.read?_write]
  split <;> rfl

/-- An index nothing wrote since Create reads as the free draw. -/
theorem readByte_unwritten (s : State) (i : Nat) (h : s.buf.read? i = none) : readByte s i = Config.bufDraw s.draw i := by
  simp [readByte, h]

/-- The packet after a store is the packet before with the byte at its end. -/
theorem packet_store (v : Byte) (s : State) (h : s.len.val < Config.cap) : (store v s h).packet = s.packet ++ [v] := by
  simp only [State.packet, memRead, store_len, List.range_succ, List.map_append, List.map_cons, List.map_nil]
  congr 1
  · refine List.map_congr_left fun i hi => ?_
    have : s.len.val ≠ i := by have := List.mem_range.1 hi; omega
    simp [readByte_store, this]
  · simp [readByte_store]

@[simp] theorem packet_length (s : State) : s.packet.length = s.len.val := by simp [State.packet, memRead]

theorem packet_of_len_zero (s : State) (h : s.len.val = 0) : s.packet = [] := by
  simp [State.packet, memRead, h]

/-- The packet depends on `len`, the buffer and the draw alone. -/
theorem packet_congr {s t : State} (hl : t.len = s.len) (hb : t.buf = s.buf) (hd : t.draw = s.draw) : t.packet = s.packet := by
  simp only [State.packet, memRead, hl]
  exact List.map_congr_left fun i _ => by simp [readByte, hb, hd]

end Sys2Proof.Machine
end

