-- ==== Sys2Proof/Laws/Ops.lean ====
section
/-! SUPPORT. One spec lemma per shared operation: Append, delivery, the life check, Step and its fold. -/

namespace Sys2Proof.Machine

@[simp] theorem andThen_next (s : State) (f : State → Host.Outcome State Fault Refusal) : andThen (.next s) f = f s := rfl

@[simp] theorem andThen_fault (r : Fault) (f : State → Host.Outcome State Fault Refusal) : andThen (.fault r) f = .fault r := rfl

@[simp] theorem andThen_refused (r : Refusal) (f : State → Host.Outcome State Fault Refusal) :
    andThen (.refused r) f = .refused r := rfl

/-- What a sequence that goes on must have done. -/
theorem andThen_eq_next {o : Host.Outcome State Fault Refusal} {f : State → Host.Outcome State Fault Refusal} {t : State}
    (h : andThen o f = .next t) : ∃ u, o = .next u ∧ f u = .next t := by
  cases o with
  | next u => exact ⟨u, rfl, h⟩
  | fault r => cases h
  | refused r => cases h

theorem andThen_assoc (o : Host.Outcome State Fault Refusal) (f g : State → Host.Outcome State Fault Refusal) :
    andThen (andThen o f) g = andThen o (fun t => andThen (f t) g) := by
  cases o <;> rfl

/-! Append (R156). -/

theorem append_closed (v : Byte) {s : State} (h : s.inPacket = false) : append v s = s := by simp [append, h]

theorem append_room (v : Byte) {s : State} (h : s.inPacket = true) (hl : s.len.val < Config.cap) :
    append v s = store v s hl := by
  simp [append, h, hl]

theorem append_full (v : Byte) {s : State} (h : s.inPacket = true) (hl : s.len.val = Config.cap) :
    append v s = stateReset s := by
  simp [append, h, hl]

/-- Everything Append can do: drop, overflow or store. -/
theorem append_cases (v : Byte) (s : State) :
    (s.inPacket = false ∧ append v s = s) ∨
    (s.inPacket = true ∧ s.len.val = Config.cap ∧ append v s = stateReset s) ∨
    (s.inPacket = true ∧ ∃ h : s.len.val < Config.cap, append v s = store v s h) := by
  by_cases hp : s.inPacket = false
  · exact .inl ⟨hp, append_closed v hp⟩
  · have hp : s.inPacket = true := by simpa using hp
    by_cases hl : s.len.val < Config.cap
    · exact .inr (.inr ⟨hp, hl, append_room v hp hl⟩)
    · have hl : s.len.val = Config.cap := by have := s.len.isLt; omega
      exact .inr (.inl ⟨hp, hl, append_full v hp hl⟩)

@[simp] theorem append_life (v : Byte) (s : State) : (append v s).life = s.life := by
  obtain ⟨_, h⟩ | ⟨_, _, h⟩ | ⟨_, _, h⟩ := append_cases v s <;> simp [h]

@[simp] theorem append_cfg (v : Byte) (s : State) : (append v s).cfg = s.cfg := by
  obtain ⟨_, h⟩ | ⟨_, _, h⟩ | ⟨_, _, h⟩ := append_cases v s <;> simp [h]

@[simp] theorem append_out (v : Byte) (s : State) : (append v s).out = s.out := by
  obtain ⟨_, h⟩ | ⟨_, _, h⟩ | ⟨_, _, h⟩ := append_cases v s <;> simp [h]

@[simp] theorem append_delivered (v : Byte) (s : State) : (append v s).delivered = s.delivered := by
  obtain ⟨_, h⟩ | ⟨_, _, h⟩ | ⟨_, _, h⟩ := append_cases v s <;> simp [h]

@[simp] theorem append_faults (v : Byte) (s : State) : (append v s).faults = s.faults := by
  obtain ⟨_, h⟩ | ⟨_, _, h⟩ | ⟨_, _, h⟩ := append_cases v s <;> simp [h]

@[simp] theorem append_draw (v : Byte) (s : State) : (append v s).draw = s.draw := by
  obtain ⟨_, h⟩ | ⟨_, _, h⟩ | ⟨_, _, h⟩ := append_cases v s <;> simp [h]

@[simp] theorem append_inputs (v : Byte) (s : State) : (append v s).inputs = s.inputs := by
  obtain ⟨_, h⟩ | ⟨_, _, h⟩ | ⟨_, _, h⟩ := append_cases v s <;> simp [h]

@[simp] theorem append_sinkCalls (v : Byte) (s : State) : (append v s).sinkCalls = s.sinkCalls := by
  obtain ⟨_, h⟩ | ⟨_, _, h⟩ | ⟨_, _, h⟩ := append_cases v s <;> simp [h]

/-! Delivery (R128, R129). -/

/-- A state with other output, other record, other faults and other calls of the sink: all that delivery changes. -/
def State.withOutput (s : State) (o : List Emission) (d : List Delivery) (f : List Fault) (k : List (List HostOp)) : State :=
  { s with out := o, delivered := d, faults := f, sinkCalls := k }

/-- Refused calls leave one ReentrantCall each in the fault record, and nothing else. -/
theorem refuseCalls_eq (calls : List HostOp) (s : State) :
    refuseCalls calls s = { s with faults := s.faults ++ List.replicate calls.length .reentrantCall } := by
  induction calls generalizing s with
  | nil => simp [refuseCalls]
  | cons c calls ih => simp [refuseCalls, ih, recordFault, List.replicate_succ]

@[simp] theorem callsDuring_zero (k : List (List HostOp)) : callsDuring k 0 = 0 := by simp [callsDuring]

theorem callsDuring_succ (k : List (List HostOp)) (n : Nat) :
    callsDuring k (n + 1) = (k.headD []).length + callsDuring k.tail n := by
  cases k <;> simp [callsDuring]

theorem callsDuring_add (k : List (List HostOp)) (m n : Nat) :
    callsDuring k (m + n) = callsDuring k m + callsDuring (k.drop m) n := by
  simp [callsDuring, List.take_add]

theorem callsDuring_quiet {k : List (List HostOp)} (h : ∀ calls ∈ k, calls = []) (n : Nat) : callsDuring k n = 0 := by
  induction n generalizing k with
  | zero => simp
  | succ n ih =>
    rw [callsDuring_succ, ih fun c hc => h c (List.mem_of_mem_tail hc)]
    cases k with
    | nil => rfl
    | cons c k => simp [h c (by simp)]

/-- Everything the delivery of a list does: each emission goes to `cfg.sink`, and each call made meanwhile is recorded. -/
theorem deliverAll_eq (es : List Emission) (s : State) :
    deliverAll es s = s.withOutput s.out (s.delivered ++ es.map (Delivery.mk s.cfg.sink))
      (s.faults ++ List.replicate (callsDuring s.sinkCalls es.length) .reentrantCall) (s.sinkCalls.drop es.length) := by
  induction es generalizing s with
  | nil => simp [deliverAll, State.withOutput]
  | cons e es ih =>
    rw [deliverAll, ih, deliverOne, refuseCalls_eq]
    simp [State.withOutput, callsDuring_succ]

/-- Everything the delivery of the undelivered output does. -/
theorem deliverOut_eq (s : State) :
    deliverOut s = s.withOutput [] (s.delivered ++ s.out.map (Delivery.mk s.cfg.sink))
      (s.faults ++ List.replicate (callsDuring s.sinkCalls s.out.length) .reentrantCall) (s.sinkCalls.drop s.out.length) :=
  deliverAll_eq s.out { s with out := [] }

/-! The life check (R123). -/

theorem whenLive_live {f : State → Host.Outcome State Fault Refusal} {s : State} (h : s.life = .live) : whenLive f s = f s := by
  simp [whenLive, h]

theorem whenLive_eq_next {f : State → Host.Outcome State Fault Refusal} {s t : State} (h : whenLive f s = .next t) :
    s.life = .live ∧ f s = .next t := by
  unfold whenLive at h
  split at h <;> simp_all

/-! Step (R150). -/

/-- Executing the instruction a byte decodes to is one byte step. -/
theorem exec_decodeByte (s : State) (b : Byte) : exec (decodeByte s.pendingEscape b) s = .next (byteStep s b) := by
  simp only [decodeByte, decodeByteWith, byteStep]
  cases classify Config.params s.pendingEscape b <;> rfl

/-- The emissions one byte step makes: one for an END that closes a packet, else none (R153, R157). -/
def made (s : State) (b : Byte) : List Emission :=
  if classify Config.params s.pendingEscape b = .endPacket ∧ s.inPacket = true then [currentEmission s] else []

@[simp] theorem byteStep_out (s : State) (b : Byte) : (byteStep s b).out = s.out ++ made s b := by
  unfold byteStep made
  split <;> simp_all [escapedDataStep, startStep, endStep, escStep, dataStep]
  split <;> simp_all

@[simp] theorem endStep_frame (s : State) :
    (endStep s).buf = s.buf ∧ (endStep s).life = s.life ∧ (endStep s).cfg = s.cfg ∧ (endStep s).delivered = s.delivered ∧
    (endStep s).faults = s.faults ∧
    (endStep s).draw = s.draw ∧ (endStep s).inputs = s.inputs ∧ (endStep s).sinkCalls = s.sinkCalls := by
  unfold endStep
  cases s.inPacket <;> simp

/-- What no byte step changes. -/
theorem byteStep_frame (s : State) (b : Byte) :
    (byteStep s b).life = s.life ∧ (byteStep s b).cfg = s.cfg ∧ (byteStep s b).delivered = s.delivered ∧
    (byteStep s b).faults = s.faults ∧ (byteStep s b).draw = s.draw ∧ (byteStep s b).inputs = s.inputs ∧
    (byteStep s b).sinkCalls = s.sinkCalls := by
  unfold byteStep
  split <;> simp [escapedDataStep, startStep, escStep, dataStep]

@[simp] theorem byteStep_life (s : State) (b : Byte) : (byteStep s b).life = s.life := (byteStep_frame s b).1
@[simp] theorem byteStep_cfg (s : State) (b : Byte) : (byteStep s b).cfg = s.cfg := (byteStep_frame s b).2.1
@[simp] theorem byteStep_delivered (s : State) (b : Byte) : (byteStep s b).delivered = s.delivered := (byteStep_frame s b).2.2.1
@[simp] theorem byteStep_faults (s : State) (b : Byte) : (byteStep s b).faults = s.faults := (byteStep_frame s b).2.2.2.1
@[simp] theorem byteStep_draw (s : State) (b : Byte) : (byteStep s b).draw = s.draw := (byteStep_frame s b).2.2.2.2.1
@[simp] theorem byteStep_inputs (s : State) (b : Byte) : (byteStep s b).inputs = s.inputs := (byteStep_frame s b).2.2.2.2.2.1
@[simp] theorem byteStep_sinkCalls (s : State) (b : Byte) : (byteStep s b).sinkCalls = s.sinkCalls :=
  (byteStep_frame s b).2.2.2.2.2.2

theorem append_withOutput (v : Byte) (s : State) (o : List Emission) (d : List Delivery) (f : List Fault)
    (k : List (List HostOp)) :
    append v (s.withOutput o d f k) = (append v s).withOutput o d f k := by
  unfold append
  have h1 : (s.withOutput o d f k).inPacket = s.inPacket := rfl
  have h2 : (s.withOutput o d f k).len = s.len := rfl
  simp only [h1, h2]
  split
  · rfl
  · split <;> rfl

theorem made_withOutput (s : State) (b : Byte) (o : List Emission) (d : List Delivery) (f : List Fault)
    (k : List (List HostOp)) :
    made (s.withOutput o d f k) b = made s b := rfl

/-- A byte step sees nothing of the output, the record or the sink: it only adds to `out`. -/
theorem byteStep_withOutput (s : State) (b : Byte) (o : List Emission) (d : List Delivery) (f : List Fault)
    (k : List (List HostOp)) :
    byteStep (s.withOutput o d f k) b = (byteStep s b).withOutput (o ++ made s b) d f k := by
  have h1 : (s.withOutput o d f k).pendingEscape = s.pendingEscape := rfl
  have h2 : (s.withOutput o d f k).inPacket = s.inPacket := rfl
  unfold byteStep made
  rw [h1]
  cases classify Config.params s.pendingEscape b
  · simp only [escapedDataStep, append_withOutput]
    simp [setPendingEscape, State.withOutput]
  · simp [startStep, openPacket, State.withOutput]
  · simp only [endStep, h2]
    cases s.inPacket <;> simp [stateReset, emit, State.withOutput, currentEmission, State.packet, memRead, readByte]
  · simp [escStep, setPendingEscape, State.withOutput]
  · simp only [dataStep, append_withOutput]
    simp [State.withOutput]

/-! The fold of Step (R126). -/

@[simp] theorem feed_nil (s : State) : feed s [] = s := rfl

@[simp] theorem feed_cons (s : State) (b : Byte) (c : List Byte) : feed s (b :: c) = feed (byteStep s b) c := rfl

theorem feed_append (s : State) (a b : List Byte) : feed s (a ++ b) = feed (feed s a) b := by
  simp [feed]

/-- The emissions a fold makes, in order. -/
def feedMade : State → List Byte → List Emission
  | _, [] => []
  | s, b :: c => made s b ++ feedMade (byteStep s b) c

@[simp] theorem feed_out (s : State) (c : List Byte) : (feed s c).out = s.out ++ feedMade s c := by
  induction c generalizing s with
  | nil => simp [feedMade]
  | cons b c ih => simp [feedMade, ih]

theorem feed_frame (s : State) (c : List Byte) :
    (feed s c).life = s.life ∧ (feed s c).cfg = s.cfg ∧ (feed s c).delivered = s.delivered ∧
    (feed s c).faults = s.faults ∧ (feed s c).draw = s.draw ∧ (feed s c).inputs = s.inputs ∧ (feed s c).sinkCalls = s.sinkCalls := by
  induction c generalizing s with
  | nil => simp
  | cons b c ih => simp [ih]

theorem feed_withOutput (s : State) (c : List Byte) (o : List Emission) (d : List Delivery) (f : List Fault)
    (k : List (List HostOp)) :
    feed (s.withOutput o d f k) c = (feed s c).withOutput (o ++ feedMade s c) d f k := by
  induction c generalizing s o with
  | nil => simp [feedMade, State.withOutput]
  | cons b c ih => simp [feedMade, byteStep_withOutput, ih]

theorem feedMade_withOutput (s : State) (c : List Byte) (o : List Emission) (d : List Delivery) (f : List Fault)
    (k : List (List HostOp)) :
    feedMade (s.withOutput o d f k) c = feedMade s c := by
  induction c generalizing s o with
  | nil => rfl
  | cons b c ih => simp [feedMade, byteStep_withOutput, ih, made_withOutput]

/-! The loop of Write (R123). -/

@[simp] theorem writeLoop_nil (s : State) : writeLoop [] s = s := rfl

theorem writeLoop_cons (b : Byte) (c : List Byte) (s : State) : writeLoop (b :: c) s = writeLoop c (deliverOut (byteStep s b)) := rfl

theorem writeLoop_append (a b : List Byte) (s : State) : writeLoop (a ++ b) s = writeLoop b (writeLoop a s) := by
  induction a generalizing s with
  | nil => rfl
  | cons x a ih => exact ih _

/-- The loop leaves `life` and `cfg` alone. -/
theorem writeLoop_life_cfg (c : List Byte) (s : State) : (writeLoop c s).life = s.life ∧ (writeLoop c s).cfg = s.cfg := by
  induction c generalizing s with
  | nil => exact ⟨rfl, rfl⟩
  | cons b c ih =>
    rw [writeLoop_cons]
    obtain ⟨h1, h2⟩ := ih (deliverOut (byteStep s b))
    rw [h1, h2, deliverOut_eq]
    exact ⟨byteStep_life s b, byteStep_cfg s b⟩

/-- WRITE on a live instance is its loop. -/
theorem exec_write_live {s : State} (h : s.life = .live) (c : List Byte) : exec (.write c) s = .next (writeLoop c s) :=
  whenLive_live (f := fun s => .next (writeLoop c s)) h

/-- The state after a chunk: the fold of Step, with all it emitted delivered and all the sink called meanwhile refused. -/
def afterChunk (s : State) (c : List Byte) : State :=
  (feed s c).withOutput [] (s.delivered ++ (feedMade s c).map (Delivery.mk s.cfg.sink))
    (s.faults ++ List.replicate (callsDuring s.sinkCalls (feedMade s c).length) .reentrantCall)
    (s.sinkCalls.drop (feedMade s c).length)

/-- Everything the loop does from a state with nothing undelivered. -/
theorem writeLoop_eq (c : List Byte) (s : State) (ho : s.out = []) : writeLoop c s = afterChunk s c := by
  induction c generalizing s with
  | nil =>
    simp only [writeLoop_nil, afterChunk, feedMade, State.withOutput, feed_nil, List.map_nil, List.append_nil, List.length_nil,
      List.drop_zero, callsDuring_zero, List.replicate_zero]
    rw [← ho]
  | cons b c ih =>
    have hout : (byteStep s b).out = made s b := by simp [ho]
    rw [writeLoop_cons, ih _ (by rw [deliverOut_eq]; rfl), deliverOut_eq, hout]
    simp only [afterChunk, feed_withOutput, feedMade_withOutput, feed_cons, feedMade]
    simp [State.withOutput, callsDuring_add]

end Sys2Proof.Machine
end

