-- ==== Sys2Proof/Laws/PerInstr.lean ====
section
/-! SUPPORT. Statements made per instruction: the form of an instruction's encoding (30_encoding.md R90, 40_host_operations.md
R131). -/

namespace Sys2Proof.Laws.EncodingForm

/-- A per-byte operation is encoded in exactly one byte, and a host transaction in none, for any parameters. -/
def Statement (i : Instr) : Prop :=
  ∀ p : Params, match i.byteClass? with
    | some _ => ∃ b : Byte, encodeWith p i = some [b]
    | none => encodeWith p i = none

theorem escapedData (b : Byte) : Statement (.escapedData b) := fun _ => ⟨b, rfl⟩
theorem start : Statement .start := fun p => ⟨p.startByte, rfl⟩
theorem endPacket : Statement .endPacket := fun p => ⟨p.endByte, rfl⟩
theorem esc : Statement .esc := fun p => ⟨p.escapeByte, rfl⟩
theorem data (b : Byte) : Statement (.data b) := fun _ => ⟨b, rfl⟩
theorem create (sink : Sink) (ctx : Ctx) : Statement (.create sink ctx) := fun _ => rfl
theorem destroy : Statement .destroy := fun _ => rfl
theorem write (c : List Byte) : Statement (.write c) := fun _ => rfl

end Sys2Proof.Laws.EncodingForm
end

