-- ==== Sys2Proof/Laws/Step.lean ====
section
/-! SUPPORT. What a step of the machine can do. -/

namespace Sys2Proof.Machine

/-- One offered byte is a Write of one byte (R130). -/
theorem offerByte_eq_execWrite (b : Byte) (s : State) : offerByte b s = execWrite [b] s := by
  unfold offerByte execWrite whenLive
  cases s.life
  · rfl
  · show andThen (exec (decodeByte s.pendingEscape b) s) (fun t => .next (deliverOut t)) = .next (writeLoop [b] s)
    rw [exec_decodeByte]
    rfl
  · rfl

theorem step_idle {s : State} (h : s.inputs = []) : step s = .next s := by simp [step, fetch, h]

theorem step_request {s : State} {r : Request} {rest : List Request} (h : s.inputs = r :: rest) :
    step s = perform r { s with inputs := rest } := by simp [step, fetch, h]

/-- The host operation a request stands for (R130, R131). -/
def Request.asOp : Request → HostOp
  | .byte b => .write [b]
  | .op o => o

theorem perform_eq_exec (r : Request) (s : State) : perform r s = exec r.asOp.toInstr s := by
  cases r with
  | byte b => exact offerByte_eq_execWrite b s
  | op o => rfl

/-- Everything a step that faults can have met: a request that is no Create before the first Create, a Write on a dead instance, or a
Destroy on one (R203). -/
theorem step_faults {s : State} {r : Fault} (h : step s = .fault r) :
    ∃ q rest, s.inputs = q :: rest ∧
      ((r = .notCreated ∧ s.life = .unmade ∧ ∀ k x, q.asOp ≠ .create k x) ∨
       (r = .useAfterDestroy ∧ s.life = .dead ∧ ∃ c, q.asOp = .write c) ∨
       (r = .doubleDestroy ∧ s.life = .dead ∧ q.asOp = .destroy)) := by
  cases hi : s.inputs with
  | nil => rw [step_idle hi] at h; cases h
  | cons q rest =>
    rw [step_request hi, perform_eq_exec] at h
    refine ⟨q, rest, rfl, ?_⟩
    cases ho : q.asOp with
    | create k x => rw [ho] at h; cases h
    | destroy =>
      rw [ho] at h
      simp only [HostOp.toInstr, exec, execDestroy] at h
      split at h <;> cases h
      · next hl => exact .inl ⟨rfl, hl, by simp⟩
      · next hl => exact .inr (.inr ⟨rfl, hl, rfl⟩)
    | write c =>
      rw [ho] at h
      simp only [HostOp.toInstr, exec, execWrite, whenLive] at h
      split at h <;> cases h
      · next hl => exact .inl ⟨rfl, hl, by simp⟩
      · next hl => exact .inr (.inl ⟨rfl, hl, c, rfl⟩)

/-- Everything a step that answers a next state can have done: hold, create, destroy a live instance, or take a chunk on one. -/
theorem step_cases {s t : State} (h : step s = .next t) :
    (s.inputs = [] ∧ t = s) ∨
    ∃ r rest, s.inputs = r :: rest ∧
      ((∃ k x, r.asOp = .create k x ∧ t = createStep k x { s with inputs := rest }) ∨
       (r.asOp = .destroy ∧ s.life = .live ∧ t = { s with inputs := rest, life := .dead }) ∨
       (∃ c, r.asOp = .write c ∧ s.life = .live ∧ t = writeLoop c { s with inputs := rest })) := by
  cases hi : s.inputs with
  | nil => rw [step_idle hi] at h; exact .inl ⟨rfl, by cases h; rfl⟩
  | cons r rest =>
    rw [step_request hi, perform_eq_exec] at h
    refine .inr ⟨r, rest, rfl, ?_⟩
    cases ho : r.asOp with
    | create k x =>
      rw [ho] at h
      exact .inl ⟨k, x, rfl, by cases h; rfl⟩
    | destroy =>
      rw [ho] at h
      simp only [HostOp.toInstr, exec, execDestroy] at h
      split at h
      · cases h
      · cases h
      · next hl => exact .inr (.inl ⟨rfl, hl, by cases h; rfl⟩)
    | write c =>
      rw [ho] at h
      obtain ⟨hl, hw⟩ := whenLive_eq_next (f := fun s => .next (writeLoop c s)) h
      exact .inr (.inr ⟨c, rfl, hl, by cases hw; rfl⟩)

end Sys2Proof.Machine
end

