-- ==== Sys2Proof/Tests/Slice0.lean ====
section
/-! SUPPORT. The model's own tests. Expected results are the spec's: the vectors and programs of 95_test_vectors.md, and the worked
examples of 40_host_operations.md and 41_byte_operations.md. The last part holds a witness for the hypotheses of each obligation. -/

namespace Sys2Proof.Tests
open Sys2Proof Sys2Proof.Machine

/-! ## Helpers -/

/-- The next state, if the outcome is one. -/
def nextOf (o : Host.Outcome State Fault Refusal) : Option State :=
  match o with
  | .next t => some t
  | .fault _ => none
  | .refused _ => none

/-- The fault, if the outcome is one. -/
def faultOf (o : Host.Outcome State Fault Refusal) : Option Fault :=
  match o with
  | .next _ => none
  | .fault r => some r
  | .refused _ => none

/-- `(in_packet, pending_escape, len, buf[0..len))` as 95_test_vectors.md writes a state. -/
def view (s : State) : Bool × Bool × Nat × List Byte := (s.inPacket, s.pendingEscape, s.len.val, s.packet)

/-- The emissions delivered, as `(ctx, n, data)`. -/
def events (s : State) : List (Nat × Nat × List Byte) :=
  s.delivered.map fun d => (d.emission.ctx, d.emission.len, d.emission.data)

/-- `(1, pe, 1, [FF])`: one byte FF accumulated. -/
def oneByte (pe : Bool) : State :=
  { State.reset with inPacket := true, pendingEscape := pe, len := ⟨1, by decide⟩, buf := [(0, 0xFF)] }

/-- `(1, pe, 510, ...)`: a full buffer. -/
def fullPacket (pe : Bool) : State :=
  { State.reset with inPacket := true, pendingEscape := pe, len := ⟨510, by decide⟩ }

/-- An instance with a given `life`. -/
def withLife (l : Life) : State := { State.reset with life := l }

/-- An instance with one request waiting. -/
def asking (r : Request) : State := { State.reset with inputs := [r] }

/-! ## Well-formedness: an ill-formed term for each check -/

theorem test_data_start_ill_formed : Instr.wellFormed Config.params (.data 0x02) = false := by decide
theorem test_data_end_ill_formed : Instr.wellFormed Config.params (.data 0x03) = false := by decide
theorem test_data_esc_ill_formed : Instr.wellFormed Config.params (.data 0x10) = false := by decide
theorem test_data_plain_well_formed : Instr.wellFormed Config.params (.data 0x22) = true := by decide
theorem test_params_start_is_end : Params.wf { Config.params with endByte := 0x02 } = false := by decide
theorem test_params_start_is_esc : Params.wf { Config.params with escapeByte := 0x02 } = false := by decide
theorem test_params_end_is_esc : Params.wf { Config.params with escapeByte := 0x03 } = false := by decide
theorem test_params_too_short : Params.wf { Config.params with maxPacketLen := 1 } = false := by decide
theorem test_params_mask_meets_start : Params.maskClear { Config.params with startByte := 0x22 } = false := by decide
theorem test_params_mask_meets_end : Params.maskClear { Config.params with endByte := 0x23 } = false := by decide
theorem test_params_mask_meets_esc : Params.maskClear { Config.params with escapeByte := 0x30 } = false := by decide
theorem test_params_this_hardware : Config.params.wf = true ∧ Config.params.maskClear = true := by decide

/-! ## Decode: words written out from 30_encoding.md R92 (V2.1 to V2.22) -/

theorem test_decode_start : decode false [0b00000010#8] = .ok (.start, []) := by rfl
theorem test_decode_end : decode false [0b00000011#8] = .ok (.endPacket, []) := by rfl
theorem test_decode_esc : decode false [0b00010000#8] = .ok (.esc, []) := by rfl
theorem test_decode_data : decode false [0b00100010#8] = .ok (.data 0x22, []) := by rfl
theorem test_decode_escaped : decode true [0b00000010#8] = .ok (.escapedData 0x02, []) := by rfl
theorem test_decode_nothing : decode false [] = .error .noByte := by rfl
theorem test_encode_esc : encode .esc = some [0b00010000#8] := by rfl
theorem test_encode_write : encode (.write [0x02]) = none := by rfl
theorem test_table_word_end : decodeTableWord 8 3 = some .endPacket := by decide
theorem test_table_word_wide : decodeTableWord 16 3 = none := by decide
theorem test_operands : operand Config.params .escapedData 0x62 = some 0x42 ∧ operand Config.params .data 0x62 = some 0x62 ∧
    operand Config.params .esc 0x10 = none := by decide
/-- V2.20 under both readings of C1. -/
theorem test_unescape_readings : unescape Config.params 0x42 = 0x42 ∧ unescape { Config.params with unescape := .xor } 0x42 = 0x62 := by decide

/-! ## One step, at most two tests an instruction -/

/-- R151, example. -/
theorem test_escaped_data : (nextOf (exec (.escapedData 0x22) (oneByte true))).map view = some (true, false, 2, [0xFF, 0x02]) := by decide
/-- V3.8: an escaped 0x02 in IDLE_ESCAPED is dropped. -/
theorem test_escaped_data_dropped :
    (nextOf (exec (.escapedData 0x02) { State.reset with pendingEscape := true })).map view = some (false, false, 0, []) := by decide
/-- R152, example. -/
theorem test_start_restarts : (nextOf (exec .start (oneByte false))).map view = some (true, false, 0, []) := by decide
/-- R153, example. -/
theorem test_end_emits : (nextOf (exec .endPacket (oneByte false))).map (fun t => (view t, t.out)) =
    some ((false, false, 0, []), [{ ctx := 0, len := 1, data := [0xFF] }]) := by decide
/-- V5.1. -/
theorem test_end_stray : (nextOf (exec .endPacket State.reset)).map (fun t => (view t, t.out)) = some ((false, false, 0, []), []) := by decide
/-- R154, example. -/
theorem test_esc : (nextOf (exec .esc (oneByte false))).map view = some (true, true, 1, [0xFF]) := by decide
/-- V6.4: ESC at a full buffer does not overflow yet. -/
theorem test_esc_full : (nextOf (exec .esc (fullPacket false))).map (fun t => (t.inPacket, t.pendingEscape, t.len.val)) = some (true, true, 510) := by
  decide
/-- R155, example. -/
theorem test_data : (nextOf (exec (.data 0xFF) { State.reset with inPacket := true })).map view = some (true, false, 1, [0xFF]) := by decide
/-- V7.4: the byte after CAP bytes overflows. -/
theorem test_data_overflow : (nextOf (exec (.data 0x41) (fullPacket false))).map view = some (false, false, 0, []) := by decide
/-- R120, example: Create(k, 7). -/
theorem test_create : (nextOf (exec (.create 5 7) (oneByte true))).map (fun t => (view t, t.cfg.ctx, t.life)) =
    some ((false, false, 0, []), 7, .live) := by decide
/-- R121: Create on a dead instance. -/
theorem test_create_dead : (nextOf (exec (.create 5 7) (withLife .dead))).map State.life = some .live := by decide
/-- R122, example: a partial packet is dropped without emission. -/
theorem test_destroy : (nextOf (exec .destroy (oneByte false))).map (fun t => (t.life, t.delivered)) = some (.dead, []) := by decide
/-- V8.4. -/
theorem test_destroy_twice : faultOf (exec .destroy (withLife .dead)) = some .doubleDestroy := by decide
/-- V1.1. -/
theorem test_write : (nextOf (exec (.write [0x02, 0xFF, 0x10, 0x22, 0x45, 0x03]) State.reset)).map events =
    some [(0, 3, [0xFF, 0x02, 0x45])] := by decide
/-- Program A, second chunk, from the state its first chunk leaves. -/
theorem test_write_split : (nextOf (exec (.write [0x22, 0x45, 0x03, 0x02, 0x10]) (oneByte true))).map (fun t => (t.framerState, events t)) =
    some (.escaped, [(0, 3, [0xFF, 0x02, 0x45])]) := by decide
/-- R123 on the machine's own step, through the placed word: START after reset. -/
theorem test_step_start : (nextOf (step (State.reset.withFetchWord 8 2))).map view = some (true, false, 0, []) := by decide
/-- V8.5. -/
theorem test_step_before_create : faultOf (step { asking (.byte 0x02) with life := .unmade }) = some .notCreated := by decide

/-! ## Witnesses: states and operands that meet the hypotheses of each obligation -/

theorem witness_ready : State.reset.Ready ∧ State.reset.IsIdle := ⟨⟨rfl, rfl⟩, rfl, rfl⟩

theorem witness_IllFormedConfigurationIsRefused :
    (Config.params.startByte ≠ Config.params.endByte ∧ Config.params.startByte ≠ Config.params.escapeByte ∧
      Config.params.endByte ≠ Config.params.escapeByte ∧ 2 ≤ Config.params.maxPacketLen) ∧
    ¬ (2 ≤ ({ Config.params with maxPacketLen := 1 } : Params).maxPacketLen) := by decide
theorem witness_DestroyEndsLife : State.reset.life = .live := rfl
theorem witness_DestroyFaults : (withLife .unmade).life = .unmade ∧ (withLife .dead).life = .dead := ⟨rfl, rfl⟩
/-- For LifeChangesOnlyByCreateAndDestroy and ConfigurationFixedByCreate: each instruction completes somewhere. -/
theorem witness_exec_next : ∀ i ∈ [Instr.escapedData 0x22, .start, .endPacket, .esc, .data 0x41, .create 1 2, .destroy, .write [0x02, 0x41]],
    (nextOf (exec i State.reset)).isSome = true := by decide
/-- For EndEmitsThenResets. -/
theorem witness_EndEmitsThenResets : (oneByte false).inPacket = true ∧ State.reset.inPacket = false := ⟨rfl, rfl⟩
/-- For DataAppendsItsByte and EscapedDataAppendsUnescapedByte: bytes R93 allows at the edges of its ranges, and a state for each clause:
outside, full, at 1 and at 509. -/
theorem witness_append_clauses : (∀ b ∈ [(0x01 : Byte), 0x04, 0x0F, 0x11], (Instr.data b).wellFormed Config.params = true) ∧ State.reset.inPacket = false ∧
    ((fullPacket false).inPacket = true ∧ (fullPacket false).len.val = Config.cap) ∧
    ((oneByte false).inPacket = true ∧ (oneByte false).len.val < Config.cap) ∧
    ({ fullPacket false with len := ⟨509, by decide⟩ } : State).len.val < Config.cap := by decide
/-- For ByteOperationsIgnoreLifeAndSink, OnlyEndEmits and LengthGrowsByOneOnlyInAppend. -/
theorem witness_byte_operations : ∀ i ∈ [Instr.escapedData 0x22, .start, .endPacket, .esc, .data 0x41],
    i.byteClass?.isSome = true ∧ (nextOf (exec i (oneByte false))).isSome = true := by decide
/-- For OnlyAppendWritesBuffer: an index below `len`, one at `len` on a full buffer. -/
theorem witness_OnlyAppendWritesBuffer : (∀ c, Instr.data 0x41 ≠ .write c) ∧ exec (.data 0x41) (oneByte false) = .next (dataStep 0x41 (oneByte false)) ∧
    ¬ ((oneByte false).inPacket = true ∧ (oneByte false).len.val < Config.cap ∧ 0 = (oneByte false).len.val) ∧
    ¬ ((fullPacket false).inPacket = true ∧ (fullPacket false).len.val < Config.cap ∧ 510 = (fullPacket false).len.val) :=
  ⟨by simp, rfl, by decide, by decide⟩
/-- For OpenPacketHoldsDecodedValues: START, an append and an ESC leave a packet open. -/
theorem witness_OpenPacketHoldsDecodedValues : ∀ b ∈ [(0x02 : Byte), 0x41, 0x10],
    (nextOf (exec (decodeByte false b) (oneByte false))).map State.inPacket = some true := by decide
/-- For TransitionTable: INV2 in each of the four named states. -/
theorem witness_TransitionTable : State.reset.Inv2 ∧ State.reset.framerState = .idle ∧
    ({ State.reset with pendingEscape := true } : State).Inv2 ∧ ({ State.reset with pendingEscape := true } : State).framerState = .idleEscaped ∧
    (oneByte false).Inv2 ∧ (oneByte false).framerState = .accumulating ∧ (fullPacket true).Inv2 ∧ (fullPacket true).framerState = .escaped :=
  ⟨fun _ => rfl, rfl, fun _ => rfl, rfl, fun h => (by cases h), rfl, fun h => (by cases h), rfl⟩
/-- For WriteTakesBytesInOrder. -/
theorem witness_WriteTakesBytesInOrder : (withLife .unmade).life = .unmade ∧ (withLife .dead).life = .dead ∧ (withLife .live).life = .live := ⟨rfl, rfl, rfl⟩
/-- For WriteCompletesAsFoldOfStep and OutputSignalsShowEmission: a ready instance with a packet open, END as the byte, and a quiet sink. -/
theorem witness_WriteCompletesAsFoldOfStep : (oneByte false).Ready ∧ ({ oneByte false with sinkCalls := [[], []] } : State).QuietSink ∧ (oneByte false).pendingEscape = false ∧ (oneByte false).inPacket = true :=
  ⟨⟨rfl, rfl⟩, by simp [State.QuietSink], rfl, rfl⟩
/-- For WriteStoresOnlyWhereAppended: a stale 0x41 at index 0 is overwritten by 0x42. -/
theorem witness_WriteStoresOnlyWhereAppended :
    ({ State.reset with inPacket := true, buf := [(0, 0x41)] } : State).Ready ∧
    (nextOf (exec (.write [0x42]) { State.reset with inPacket := true, buf := [(0, 0x41)] })).map (fun t => readByte t 0) = some 0x42 ∧
    readByte { State.reset with inPacket := true, buf := [(0, 0x41)] } 0 = 0x41 :=
  ⟨⟨rfl, rfl⟩, by decide, by decide⟩
/-- For ReentrantCallIsRefused: a ready instance whose sink makes two calls during its one delivery and one during a delivery that
never comes. Both are recorded (U5), the emission is delivered (R128), and the byte after END is taken. -/
theorem witness_ReentrantCallIsRefused :
    let s : State := { oneByte false with sinkCalls := [[.destroy, .create 1 2], [.write []]] }
    s.Ready ∧ (nextOf (exec (.write [0x03, 0x02]) s)).map State.faults = some [.reentrantCall, .reentrantCall] ∧
      (nextOf (exec (.write [0x03, 0x02]) s)).map State.framerState = some .accumulating ∧
      (nextOf (exec (.write [0x03, 0x02]) s)).map events = some [(0, 1, [0xFF])] :=
  ⟨⟨rfl, rfl⟩, by decide, by decide, by decide⟩
theorem witness_EscapePairIsOneByte : State.reset.Ready ∧ State.reset.pendingEscape = false := ⟨witness_ready.1, rfl⟩
/-- For DeclarativeFormAgrees and EmptyPacketIsEmitted: `witness_ready`. For FrameRoundTrip and ConcatenatedFramesInOrder: a full payload. -/
theorem witness_FrameRoundTrip : State.reset.Ready ∧ State.reset.IsIdle ∧ (List.replicate 510 (0x02 : Byte)).length ≤ Config.cap ∧
    ∀ p ∈ [[(0x10 : Byte)], []], p.length ≤ Config.cap := ⟨witness_ready.1, witness_ready.2, by rw [List.length_replicate]; decide, by decide⟩
theorem witness_TooLongPacketIsDropped : Config.cap < (List.replicate 511 (0x41 : Byte)).length ∧ ([0x43] : List Byte).length ≤ Config.cap := by
  rw [List.length_replicate]; decide
/-- The window of program B: an escaped 0x02 and a stray END. -/
theorem witness_DropWindowEmitsNothing : Token.opening ∉ tokenize [0x41, 0x10, 0x02, 0x03] := by decide
theorem witness_IdleIsAlwaysReachable : (oneByte false).Ready ∧ (oneByte false).pendingEscape = false ∧ (oneByte true).Ready ∧ (oneByte true).pendingEscape = true :=
  ⟨⟨rfl, rfl⟩, rfl, ⟨rfl, rfl⟩, rfl⟩
/-- For StaleBytesNeverObserved: a stale entry, another draw. -/
theorem witness_StaleBytesNeverObserved : (oneByte false).SameButStale { oneByte false with buf := [(0, 0xFF), (7, 0x41)], draw := 3 } :=
  ⟨rfl, rfl, rfl, rfl, rfl, rfl, rfl, rfl, rfl, fun _ => by decide⟩
/-- For StepRunsDecodedInstruction and OfferedByteIsWriteOfOne: a request of each kind, in each `life`, and none. -/
theorem witness_StepRunsDecodedInstruction : State.reset.inputs = [] ∧ (asking (.byte 0x41)).inputs = .byte 0x41 :: [] ∧
    (asking (.byte 0x41)).life = .live ∧ (asking (.op .destroy)).inputs = .op .destroy :: [] ∧
    ({ asking (.byte 0x41) with life := .dead } : State).inputs = .byte 0x41 :: [] ∧
    ({ asking (.byte 0x41) with life := .unmade } : State).inputs = .byte 0x41 :: [] := ⟨rfl, rfl, rfl, rfl, rfl, rfl⟩
/-- For PowerUpWaitsForCreate: a power-up state, with any fields, before each kind of request. -/
theorem witness_PowerUpWaitsForCreate : ∀ r ∈ [Request.byte 0x02, .op .destroy, .op (.write []), .op (.create 1 2)],
    ({ fullPacket true with life := .unmade, inputs := [r] } : State).IsPowerUp := by
  intro r _
  rfl
/-- For StepKeepsInvariant, ResetHasInvariant and DeliveredRecordOnlyGrows: an open packet that a step closes. -/
theorem witness_StepKeepsInvariant : ({ oneByte false with inputs := [.byte 0x03] } : State).Inv ∧
    (nextOf (step { oneByte false with inputs := [.byte 0x03] })).map events = some [(0, 1, [0xFF])] ∧ (oneByte false).out = [] := by
  refine ⟨⟨by decide, rfl, fun _ h => (by cases h), fun _ _ i hi => ?_⟩, by decide, rfl⟩
  have : i = 0 := Nat.lt_one_iff.1 hi
  subst this
  rfl
/-- For StepFaultsExactlyAsListed: each fault happens, and is observed with what was delivered before it. -/
theorem witness_StepFaultsExactlyAsListed : faultOf (step { asking (.op .destroy) with life := .unmade }) = some .notCreated ∧
    faultOf (step { asking (.byte 0x02) with life := .dead }) = some .useAfterDestroy ∧
    observe 2 { oneByte false with inputs := [.op (.write [0x03]), .op .destroy, .op .destroy], life := .live } =
      { emissions := [{ sink := 0, emission := { ctx := 0, len := 1, data := [0xFF] } }], faults := [] } ∧
    (observe 3 { oneByte false with inputs := [.op (.write [0x03]), .op .destroy, .op .destroy], life := .live }).faults = [.doubleDestroy] := by
  decide
/-- For FaultRecordOnlyGrows: a step during whose delivery the sink calls, and a quiet sink. -/
theorem witness_FaultRecordOnlyGrows : (oneByte false).out = [] ∧ (oneByte false).QuietSink ∧
    (nextOf (step { oneByte false with inputs := [.byte 0x03], sinkCalls := [[.destroy]] })).map State.faults = some [.reentrantCall] :=
  ⟨rfl, by simp [State.QuietSink, oneByte, State.reset], by decide⟩
theorem witness_DecodeOfEncode : Config.params.wf = true ∧ (Instr.data 0xFF).wellFormed Config.params = true ∧
    (Instr.data 0xFF).byteClass?.isSome = true := by decide
theorem witness_SenderEscapesReceiverUnescapes : Config.params.maskClear = true ∧ Config.params.isControl 0x10 = true ∧
    Config.params.isControl 0x11 = false := by decide
theorem witness_CanonicalBufferIsUnique : Memory.wf [(0, 0xFF), (509, 0x41)] = true := by decide
/-- For AtMostOneRecovery and RecoveryEffects: each condition is detected somewhere. -/
theorem witness_recoveries : Recovery.detected .strayEnd State.reset 0x03 false = true ∧ Recovery.detected .overflow (fullPacket true) 0x41 false = true ∧
    Recovery.detected .restart (oneByte false) 0x02 false = true ∧ Recovery.detected .dropOutside State.reset 0x41 false = true ∧
    Recovery.detected .deferredEscape (oneByte false) 0x10 true = true ∧ (oneByte false).Inv2 ∧ (fullPacket true).Inv2 ∧ State.reset.Inv2 :=
  ⟨by decide, by decide, by decide, by decide, by decide, fun h => (by cases h), fun h => (by cases h), fun _ => rfl⟩
/-- For InstancesAreIndependent: an instance that goes on, one that faults and is stopped alone, and one already stopped. -/
theorem witness_InstancesAreIndependent :
    (∃ t, step (asking (.byte 0x02)) = .next t) ∧ faultOf (step { asking (.op .destroy) with life := .dead }) = some .doubleDestroy ∧
    (stepInstance [⟨{ asking (.op .destroy) with life := .dead }, false⟩, ⟨State.reset, false⟩] ⟨0, by decide⟩).map
      (fun c => (c.stopped, c.state.faults)) = [(true, [.doubleDestroy]), (false, [])] ∧
    stepInstance [⟨State.reset, true⟩] ⟨0, by decide⟩ = [⟨State.reset, true⟩] := ⟨⟨_, rfl⟩, by decide, by decide, by decide⟩
/-- For SignalsDriveTransactions: each pattern of asserted signals. -/
theorem witness_SignalsDriveTransactions : pinRequest 1 (⟨false, 0, false, true, 0x02⟩ : InPins 4) = some (some (.byte 0x02)) ∧
    pinRequest 1 (⟨true, 7, false, false, 0⟩ : InPins 4) = some (some (.op (.create 1 7))) ∧
    pinRequest 1 (⟨false, 0, true, false, 0⟩ : InPins 4) = some (some (.op .destroy)) ∧
    pinRequest 1 (⟨false, 0, false, false, 0⟩ : InPins 4) = some none ∧ pinRequest 1 (⟨true, 0, false, true, 0⟩ : InPins 4) = none := by decide

end Sys2Proof.Tests
end

/-! ## Scope and parameters: the proofs of the configuration statements (00_scope.md §4) -/

namespace Sys2Proof

/-- The width 0 of `lenW` at CAP = 0 is not `log2 CAP + 1`, so that case stands apart: there both sides hold for every `w`. -/
theorem Params.cap_lt_two_pow_iff (p : Params) (w : Nat) : p.cap < 2 ^ w ↔ p.lenW ≤ w := by
  unfold Params.lenW
  split
  next hzero => simp [hzero]
  next hpos => rw [← Nat.log2_lt hpos, Nat.succ_le_iff]

theorem Params.cap_lt_two_pow_lenW (p : Params) : p.cap < 2 ^ p.lenW :=
  (p.cap_lt_two_pow_iff p.lenW).mpr le_rfl

/-- R13 as a proposition. -/
theorem Params.wf_iff (p : Params) :
    p.wf = true ↔
      p.startByte ≠ p.endByte ∧ p.startByte ≠ p.escapeByte ∧ p.endByte ≠ p.escapeByte ∧ 2 ≤ p.maxPacketLen := by
  simp [Params.wf, and_assoc]

/-- Settles O3: `Nat.log2` is the position of the highest set bit of CAP. -/
theorem lengthWidthIsSmallest : Obligations.LengthWidthIsSmallest :=
  Params.cap_lt_two_pow_iff

/-- Settles O2: the values are closed facts; that 9 is the smallest width is the general fact about `lenW`. -/
theorem constantsAndWidths : Obligations.ConstantsAndWidths := by
  have hlenW : Config.params.lenW = 9 := by decide
  exact ⟨rfl, rfl, rfl, rfl, rfl, rfl, hlenW, Config.params.cap_lt_two_pow_iff, rfl, rfl⟩

namespace Machine

@[simp] theorem buildBlock_of_wf {p : Params} (h : p.wf = true) : buildBlock p = .next p :=
  if_pos h

@[simp] theorem buildBlock_of_not_wf {p : Params} (h : ¬ p.wf = true) : buildBlock p = .refused .illFormedConfig :=
  if_neg h

theorem State.len_le_cap (s : State) : s.len.val ≤ Config.cap :=
  Nat.le_of_lt_succ s.len.isLt

/-- INV1 and the choice of LEN_W (R12, R33): the count is below 2^LEN_W, so the register does not wrap. -/
@[simp] theorem State.lenReg_toNat (s : State) : s.lenReg.toNat = s.len.val := by
  have hlt : s.len.val < 2 ^ Config.params.lenW := s.len_le_cap.trans_lt Config.params.cap_lt_two_pow_lenW
  exact (BitVec.toNat_ofNat ..).trans (Nat.mod_eq_of_lt hlt)

/-- Settles O1: `buildBlock` branches on `wf`, which is R13. -/
theorem illFormedConfigurationIsRefused : Obligations.IllFormedConfigurationIsRefused := fun p =>
  ⟨fun h => buildBlock_of_wf (p.wf_iff.mpr h), fun h => buildBlock_of_not_wf (mt p.wf_iff.mp h)⟩

/-- Settles O4: the register view does not wrap, and INV1 is in the type of `len`. -/
theorem lengthRegisterHoldsCount : Obligations.LengthRegisterHoldsCount := fun s =>
  ⟨s.lenReg_toNat, s.len_le_cap⟩

end Machine

end Sys2Proof

/-! ## State: what an instruction and a step keep (10_state.md) -/

namespace Sys2Proof.Machine

/-! ### What an instruction that completes can have done -/

theorem exec_destroy_eq_next {s t : State} (h : exec .destroy s = .next t) :
    s.life = .live ∧ t = { s with life := .dead } := by
  simp only [exec, execDestroy] at h
  split at h
  next => cases h
  next => cases h
  next hlive => cases h; exact ⟨hlive, rfl⟩

theorem exec_write_eq_next {c : List Byte} {s t : State} (h : exec (.write c) s = .next t) :
    s.life = .live ∧ t = writeLoop c s := by
  obtain ⟨hlive, hrun⟩ := whenLive_eq_next (f := fun s => .next (writeLoop c s)) h
  cases hrun
  exact ⟨hlive, rfl⟩

/-- R150: a per-byte operation writes neither `life` nor `cfg`. -/
theorem exec_byteOp_life_cfg {i : Instr} {s t : State} (hi : i.byteClass?.isSome = true) (h : exec i s = .next t) :
    t.life = s.life ∧ t.cfg = s.cfg := by
  cases i with
  | escapedData b => cases h; simp [escapedDataStep]
  | start => cases h; exact ⟨rfl, rfl⟩
  | endPacket => cases h; simp
  | esc => cases h; exact ⟨rfl, rfl⟩
  | data b => cases h; simp [dataStep]
  | create k x | destroy | write c => cases hi

/-- Settles O9: DESTROY and WRITE complete only while `life` is Live, and neither the loop of WRITE nor a byte operation writes `life`. -/
theorem lifeChangesOnlyByCreateAndDestroy : Obligations.LifeChangesOnlyByCreateAndDestroy := by
  intro i s t h
  cases i with
  | create k x => cases h; exact createStep_life k x s
  | destroy =>
    obtain ⟨hlive, rfl⟩ := exec_destroy_eq_next h
    exact ⟨hlive, rfl⟩
  | write c =>
    obtain ⟨hlive, rfl⟩ := exec_write_eq_next h
    exact ⟨hlive, (writeLoop_life_cfg c s).1.trans hlive⟩
  | escapedData b | start | endPacket | esc | data b => exact (exec_byteOp_life_cfg rfl h).1

/-- Settles O10: of the eight operations CREATE alone writes `cfg`. -/
theorem configurationFixedByCreate : Obligations.ConfigurationFixedByCreate := by
  intro i s t h
  cases i with
  | create k x => cases h; exact createStep_cfg k x s
  | destroy =>
    obtain ⟨-, rfl⟩ := exec_destroy_eq_next h
    rfl
  | write c =>
    obtain ⟨-, rfl⟩ := exec_write_eq_next h
    exact (writeLoop_life_cfg c s).2
  | escapedData b | start | endPacket | esc | data b => exact (exec_byteOp_life_cfg rfl h).2

/-- Settles O5: CREATE answers `createStep`, whose buffer lists nothing. -/
theorem createGivesResetValues : Obligations.CreateGivesResetValues := fun s k x =>
  ⟨createStep k x s, rfl, rfl, rfl, rfl, rfl, rfl, rfl,
    fun i => readByte_unwritten (createStep k x s) i rfl, rfl, rfl, rfl, rfl, rfl⟩

/-! ### `len` and `pending_escape` (R33, R35) -/

/-- R156 for `len`: kept outside a packet, 0 at an overflow, one more at a store. -/
theorem append_len_cases (v : Byte) (s : State) :
    (append v s).len.val = s.len.val ∨ (append v s).len.val = 0 ∨
      ((append v s).len.val = s.len.val + 1 ∧ s.inPacket = true ∧ s.len.val < Config.cap) := by
  obtain ⟨-, heq⟩ | ⟨-, -, heq⟩ | ⟨hopen, hroom, heq⟩ := append_cases v s
  · exact .inl (by rw [heq])
  · exact .inr (.inl (by rw [heq]; rfl))
  · exact .inr (.inr ⟨by rw [heq]; rfl, hopen, hroom⟩)

/-- Settles O20: START and END set `len` to 0, ESC keeps it, and the two appending operations do what Append does. -/
theorem lengthGrowsByOneOnlyInAppend : Obligations.LengthGrowsByOneOnlyInAppend := by
  intro i s t hi h
  cases i with
  | escapedData b =>
    cases h
    exact (append_len_cases (unescape Config.params b) s).imp_right
      (.imp_right fun ⟨hlen, hopen, hroom⟩ => ⟨hlen, hopen, hroom, b, .inr rfl⟩)
  | start => cases h; exact .inr (.inl rfl)
  | endPacket => cases h; exact .inr (.inl rfl)
  | esc => cases h; exact .inl rfl
  | data b =>
    cases h
    exact (append_len_cases b s).imp_right
      (.imp_right fun ⟨hlen, hopen, hroom⟩ => ⟨hlen, hopen, hroom, b, .inl rfl⟩)
  | create k x | destroy | write c => cases hi

theorem append_pendingEscape_of_false (v : Byte) {s : State} (h : s.pendingEscape = false) :
    (append v s).pendingEscape = false := by
  obtain ⟨-, heq⟩ | ⟨-, -, heq⟩ | ⟨-, _, heq⟩ := append_cases v s <;> simp [heq, h]

/-- With an escape pending every byte is ESCAPED_DATA (R91), whatever its value. -/
theorem pendingEscape_eq_false_of_classify {p : Params} {pe : Bool} {b : Byte} {k : ByteClass}
    (h : classify p pe b = k) (hk : k ≠ .escapedData) : pe = false := by
  cases pe with
  | false => rfl
  | true => exact absurd h.symm hk

/-- The class ESC, for parameters whose escape byte is neither of the two rows above it in the table (R13, R92). -/
theorem classify_eq_esc_iff {p : Params} (hs : p.escapeByte ≠ p.startByte) (he : p.escapeByte ≠ p.endByte) (pe : Bool)
    (b : Byte) : classify p pe b = .esc ↔ pe = false ∧ b = p.escapeByte := by
  constructor
  · intro h
    have hpe : pe = false := pendingEscape_eq_false_of_classify h (by decide)
    subst hpe
    refine ⟨rfl, ?_⟩
    by_contra hb
    simp only [classify, hb] at h
    split_ifs at h
  · rintro ⟨rfl, rfl⟩
    simp [classify, hs, he]

/-- R35: ESC alone leaves `pending_escape` set; every other class leaves it 0. -/
theorem byteStep_pendingEscape_iff (s : State) (b : Byte) :
    (byteStep s b).pendingEscape = true ↔ classify Config.params s.pendingEscape b = .esc := by
  unfold byteStep
  cases hk : classify Config.params s.pendingEscape b with
  | escapedData => simp [escapedDataStep]
  | start => simp [startStep]
  | endPacket => simp [endStep]
  | esc => simp [escStep]
  | data =>
    have hpe : s.pendingEscape = false := pendingEscape_eq_false_of_classify hk (by decide)
    simp [dataStep, append_pendingEscape_of_false b hpe]

/-- Settles O21: `pending_escape` is set exactly by the class ESC, which is the byte 0x10 with no escape pending. -/
theorem pendingEscapeAfterEscOnly : Obligations.PendingEscapeAfterEscOnly := fun s b =>
  ⟨byteStep s b, exec_decodeByte s b,
    (byteStep_pendingEscape_iff s b).trans (classify_eq_esc_iff (by decide) (by decide) s.pendingEscape b)⟩

/-! ### Several instances (R47, R211) -/

theorem stepOne_of_stopped {c : Instance} (h : c.stopped = true) : stepOne c = c := if_pos h

theorem stepOne_of_next {c : Instance} {t : State} (h : c.stopped = false) (hstep : step c.state = .next t) :
    stepOne c = { state := t, stopped := false } := by
  simp [stepOne, h, hstep]

theorem stepOne_of_fault {c : Instance} {r : Fault} (h : c.stopped = false) (hstep : step c.state = .fault r) :
    stepOne c = { state := recordFault r c.state, stopped := true } := by
  simp [stepOne, h, hstep]

theorem stepInstance_getElem?_self (is : Instances) (h : Fin is.length) :
    (stepInstance is h)[h.val]? = some (stepOne (is.get h)) :=
  List.getElem?_set_self h.isLt

/-- Settles O57: `stepInstance` sets the entry of the handle alone, and that entry is what `stepOne` makes of it. -/
theorem instancesAreIndependent : Obligations.InstancesAreIndependent := by
  intro is h
  refine ⟨List.length_set, fun j hj => List.getElem?_set_ne hj.symm, fun hstop => ?_,
    fun hgo => ⟨fun t ht => ?_, fun r hr => ?_⟩⟩
  · rw [stepInstance, stepOne_of_stopped hstop]
    exact List.set_getElem_self h.isLt
  · rw [stepInstance_getElem?_self, stepOne_of_next hgo ht]
  · rw [stepInstance_getElem?_self, stepOne_of_fault hgo hr]
    rfl

/-! ### The invariant of reachable states (R37, R161)

`State.Inv` asks for no undelivered output, which fails inside a chunk. What every byte step keeps, created or not, is the rest of
it, and that part sees `buf`, `len` and `in_packet` alone. -/

/-- What `State.Inv` asks of a state once created, without its clause about the output. -/
structure State.BufferInv (s : State) : Prop where
  bufWf   : s.buf.wf = true
  inv2    : s.Inv2
  written : s.PacketWritten

theorem State.BufferInv.congr {s t : State} (h : s.BufferInv) (hbuf : t.buf = s.buf) (hlen : t.len = s.len)
    (hin : t.inPacket = s.inPacket) : t.BufferInv where
  bufWf := hbuf ▸ h.bufWf
  inv2 hclosed := hlen ▸ h.inv2 (hin ▸ hclosed)
  written hopen i hi := hbuf ▸ h.written (hin ▸ hopen) i (hlen ▸ hi)

theorem State.BufferInv.of_len_zero {s : State} (hbuf : s.buf.wf = true) (hlen : s.len.val = 0) : s.BufferInv where
  bufWf := hbuf
  inv2 _ := hlen
  written _ i hi := absurd (hlen ▸ hi) (Nat.not_lt_zero i)

theorem State.BufferInv.inv {s : State} (h : s.BufferInv) (hout : s.out = []) : s.Inv where
  bufWf := h.bufWf
  outEmpty := hout
  inv2 _ := h.inv2
  written _ := h.written

theorem State.Inv.bufferInv {s : State} (h : s.Inv) (hlife : s.life ≠ .unmade) : s.BufferInv where
  bufWf := h.bufWf
  inv2 := h.inv2 hlife
  written := h.written hlife

/-- A store writes the one entry by which it lengthens the packet. -/
theorem State.BufferInv.store {s : State} (h : s.BufferInv) (v : Byte) (hopen : s.inPacket = true)
    (hroom : s.len.val < Config.cap) : (store v s hroom).BufferInv where
  bufWf := store_wf v s hroom h.bufWf
  inv2 hclosed := absurd (hopen.symm.trans hclosed) (by decide)
  written _ i hi := by
    rw [store_buf, Memory.read?_write]
    split
    next => rfl
    next hne =>
      have hlt : i < s.len.val := Nat.lt_of_le_of_ne (Nat.le_of_lt_succ hi) (Ne.symm hne)
      exact h.written hopen i hlt

theorem State.BufferInv.append {s : State} (h : s.BufferInv) (v : Byte) : (append v s).BufferInv := by
  obtain ⟨-, heq⟩ | ⟨-, -, heq⟩ | ⟨hopen, hroom, heq⟩ := append_cases v s <;> rw [heq]
  · exact h
  · exact .of_len_zero h.bufWf rfl
  · exact h.store v hopen hroom

theorem State.BufferInv.byteStep {s : State} (h : s.BufferInv) (b : Byte) : (byteStep s b).BufferInv := by
  unfold Machine.byteStep
  split
  next => exact (h.append _).congr rfl rfl rfl
  next => exact .of_len_zero h.bufWf rfl
  next => exact .of_len_zero ((endStep_frame s).1 ▸ h.bufWf) rfl
  next => exact h.congr rfl rfl rfl
  next => exact h.append b

theorem State.BufferInv.feed {s : State} (h : s.BufferInv) (c : List Byte) : (feed s c).BufferInv := by
  induction c generalizing s with
  | nil => exact h
  | cons b c ih => exact ih (h.byteStep b)

theorem createStep_inv (k : Sink) (x : Ctx) {s : State} (hout : s.out = []) : (createStep k x s).Inv :=
  (State.BufferInv.of_len_zero (createStep_wf k x s) rfl).inv hout

/-- The chunk delivers all that its bytes emit, so the output is empty again at its end (R123). -/
theorem State.Inv.writeLoop {s : State} (h : s.Inv) (hlive : s.life = .live) (c : List Byte) : (writeLoop c s).Inv := by
  rw [writeLoop_eq c s h.outEmpty]
  have hfeed : (Machine.feed s c).BufferInv := (h.bufferInv (by simp [hlive])).feed c
  have hafter : (afterChunk s c).BufferInv := hfeed.congr rfl rfl rfl
  exact hafter.inv rfl

theorem State.Inv.withInputs {s : State} (h : s.Inv) (rest : List Request) : ({ s with inputs := rest } : State).Inv :=
  ⟨h.bufWf, h.outEmpty, h.inv2, h.written⟩

theorem State.Inv.withLifeDead {s : State} (h : s.Inv) (hlive : s.life = .live) : ({ s with life := .dead } : State).Inv := by
  have hbuf : s.BufferInv := h.bufferInv (by simp [hlive])
  exact State.BufferInv.inv (hbuf.congr rfl rfl rfl) h.outEmpty

/-- Settles O42: a step holds, creates, or, while `life` is Live, destroys or takes a chunk; each keeps the invariant. -/
theorem stepKeepsInvariant : Obligations.StepKeepsInvariant := by
  intro s t hinv hstep
  obtain ⟨-, rfl⟩ | ⟨r, rest, -, ⟨k, x, -, rfl⟩ | ⟨-, hlive, rfl⟩ | ⟨c, -, hlive, rfl⟩⟩ := step_cases hstep
  · exact hinv
  · exact createStep_inv k x hinv.outEmpty
  · exact (hinv.withInputs rest).withLifeDead hlive
  · exact (hinv.withInputs rest).writeLoop hlive c

/-- Settles O43: after reset and after CREATE the packet is empty, so there is no entry it could lack. -/
theorem resetHasInvariant : Obligations.ResetHasInvariant :=
  ⟨(State.BufferInv.of_len_zero Memory.wf_reset rfl).inv rfl,
    fun s k x hout => ⟨createStep k x s, rfl, createStep_inv k x hout⟩⟩

end Sys2Proof.Machine

/-! ## Memory: what is written to the buffer, and what is read from it (20_memory.md) -/

namespace Sys2Proof.Machine

/-! ### The canonical form (R60, R61) -/

theorem Memory.rising_of_wf {m : Memory} (h : m.wf = true) : m.rising = true :=
  (Bool.and_eq_true_iff.mp h).1

/-- Rising addresses: below the first listed address nothing is listed. -/
theorem Memory.read?_eq_none_of_lt_head {m : Memory} {a : Nat} (hm : m.rising = true) (ha : ∀ c ∈ m.head?, a < c.1) :
    m.read? a = none := by
  induction m with
  | nil => rfl
  | cons c m ih =>
    obtain ⟨k, v⟩ := c
    obtain ⟨hhead, htail⟩ := (Memory.rising_cons k v m).mp hm
    have hak : a < k := ha (k, v) rfl
    rw [Memory.read?_cons, if_neg hak.ne']
    exact ih htail fun c hc => hak.trans (hhead c hc)

/-- The first listed address is the least. -/
theorem Memory.head_le_of_read?_isSome {k : Nat} {v : Byte} {m : Memory} {a : Nat}
    (hm : Memory.rising ((k, v) :: m) = true) (ha : (Memory.read? ((k, v) :: m) a).isSome = true) : k ≤ a := by
  by_contra hlt
  have hnone : Memory.read? ((k, v) :: m) a = none :=
    Memory.read?_eq_none_of_lt_head hm (by simpa using hlt)
  simp [hnone] at ha

theorem Memory.read?_tail_head {k : Nat} {v : Byte} {m : Memory} (hm : Memory.rising ((k, v) :: m) = true) :
    m.read? k = none := by
  obtain ⟨hhead, htail⟩ := (Memory.rising_cons k v m).mp hm
  exact Memory.read?_eq_none_of_lt_head htail hhead

/-- Lists with rising addresses are equal when they read the same: each head is at the least written address, so the heads agree, and
at that address neither tail holds anything. -/
theorem Memory.eq_of_read?_eq {m n : Memory} (hm : m.rising = true) (hn : n.rising = true)
    (h : ∀ a, m.read? a = n.read? a) : m = n := by
  induction m generalizing n with
  | nil =>
    cases n with
    | nil => rfl
    | cons d n => simpa [Memory.read?] using h d.1
  | cons c m ih =>
    obtain ⟨k, v⟩ := c
    cases n with
    | nil => simpa [Memory.read?_cons] using h k
    | cons d n =>
      obtain ⟨l, w⟩ := d
      have hlk : l ≤ k := Memory.head_le_of_read?_isSome hn (by simp [← h k, Memory.read?_cons])
      have hkl : k ≤ l := Memory.head_le_of_read?_isSome hm (by simp [h l, Memory.read?_cons])
      obtain rfl : k = l := le_antisymm hkl hlk
      obtain rfl : v = w := by simpa [Memory.read?_cons] using h k
      have htails : ∀ a, Memory.read? m a = Memory.read? n a := by
        intro a
        by_cases hak : k = a
        · rw [← hak, Memory.read?_tail_head hm, Memory.read?_tail_head hn]
        · simpa [Memory.read?_cons, hak] using h a
      rw [ih ((Memory.rising_cons k v m).mp hm).2 ((Memory.rising_cons k v n).mp hn).2 htails]

/-- Settles O54: of the canonical form only the rising addresses are needed. -/
theorem canonicalBufferIsUnique : Obligations.CanonicalBufferIsUnique := fun _ _ hm hn h =>
  Memory.eq_of_read?_eq (Memory.rising_of_wf hm) (Memory.rising_of_wf hn) h

/-! ### Where the buffer is written (R61, R67) -/

/-- `readByte` sees the buffer and the draw alone. -/
theorem readByte_congr {s t : State} (hbuf : t.buf = s.buf) (hdraw : t.draw = s.draw) (a : Nat) :
    readByte t a = readByte s a := by
  simp [readByte, hbuf, hdraw]

/-- An entry of the buffer at which the next Append stores (R156). -/
def State.StoresAt (s : State) (a : Nat) : Prop :=
  s.inPacket = true ∧ s.len.val < Config.cap ∧ a = s.len.val

theorem readByte_append_of_not_storesAt (v : Byte) {s : State} {a : Nat} (h : ¬ s.StoresAt a) :
    readByte (append v s) a = readByte s a := by
  obtain ⟨-, heq⟩ | ⟨-, -, heq⟩ | ⟨hopen, hroom, heq⟩ := append_cases v s <;> rw [heq]
  · exact readByte_congr rfl rfl a
  · have hne : s.len.val ≠ a := fun ha => h ⟨hopen, hroom, ha.symm⟩
    rw [readByte_store, if_neg hne]

theorem readByte_endStep (s : State) (a : Nat) : readByte (endStep s) a = readByte s a := by
  obtain ⟨hbuf, -, -, -, -, hdraw, -, -⟩ := endStep_frame s
  exact readByte_congr hbuf hdraw a

/-- Settles O19: DATA and ESCAPED_DATA write the buffer through Append alone, CREATE lists nothing, and no other writes it. -/
theorem onlyAppendWritesBuffer : Obligations.OnlyAppendWritesBuffer := by
  intro i s t a hi h
  cases i with
  | escapedData b => cases h; exact readByte_append_of_not_storesAt (unescape Config.params b)
  | data b => cases h; exact readByte_append_of_not_storesAt b
  | start | esc => cases h; rfl
  | endPacket => cases h; exact readByte_endStep s a
  | create k x => cases h; exact readByte_unwritten (createStep k x s) a rfl
  | destroy =>
    obtain ⟨-, rfl⟩ := exec_destroy_eq_next h
    rfl
  | write c => exact absurd rfl (hi c)

/-- A byte step that changes an entry appended a decoded value there. -/
theorem storesAt_of_readByte_byteStep_ne {s : State} {b : Byte} {a : Nat}
    (h : readByte (byteStep s b) a ≠ readByte s a) :
    s.StoresAt a ∧ (operand Config.params (classify Config.params s.pendingEscape b) b).isSome = true := by
  unfold byteStep at h
  cases hk : classify Config.params s.pendingEscape b <;> simp only [hk] at h
  case escapedData =>
    exact ⟨by_contra fun hno => h (readByte_append_of_not_storesAt (unescape Config.params b) hno), rfl⟩
  case data => exact ⟨by_contra fun hno => h (readByte_append_of_not_storesAt b hno), rfl⟩
  case start => exact absurd rfl h
  case esc => exact absurd rfl h
  case endPacket => exact absurd (readByte_endStep s a) h

/-- A chunk that changes an entry has a byte whose own step changes it: the first one after which it reads differently. -/
theorem exists_byte_of_readByte_feed_ne {s : State} {c : List Byte} {a : Nat} (h : readByte (feed s c) a ≠ readByte s a) :
    ∃ before b after, c = before ++ b :: after ∧
      readByte (byteStep (feed s before) b) a ≠ readByte (feed s before) a := by
  induction c generalizing s with
  | nil => exact absurd rfl h
  | cons b c ih =>
    by_cases hb : readByte (byteStep s b) a = readByte s a
    · obtain ⟨before, b', after, rfl, hne⟩ := ih (s := byteStep s b) (hb ▸ h)
      exact ⟨b :: before, b', after, rfl, hne⟩
    · exact ⟨[], b, c, rfl, hb⟩

/-- WRITE between host operations (R123, R126). -/
theorem exec_write_ready {s : State} (h : s.Ready) (c : List Byte) : exec (.write c) s = .next (afterChunk s c) := by
  rw [exec_write_live h.live, writeLoop_eq c s h.outEmpty]

/-- Settles O26: the buffer after a WRITE is that after the fold of Step, and one byte of the chunk changed the entry. -/
theorem writeStoresOnlyWhereAppended : Obligations.WriteStoresOnlyWhereAppended := by
  intro s t c a hready h hne
  rw [exec_write_ready hready] at h
  cases h
  obtain ⟨before, b, after, rfl, hstep⟩ := exists_byte_of_readByte_feed_ne (s := s) hne
  obtain ⟨⟨hopen, hroom, rfl⟩, hvalue⟩ := storesAt_of_readByte_byteStep_ne hstep
  exact ⟨before, after, b, rfl, hopen, rfl, hroom, hvalue⟩

/-! ### What is emitted (R69, R77, R157) -/

/-- An emission with the context `x`, whose length says how many bytes it carries, at most CAP. -/
def Emission.WellFormedFor (x : Ctx) (e : Emission) : Prop :=
  e.ctx = x ∧ e.data.length = e.len ∧ e.len ≤ Config.cap

theorem currentEmission_wellFormed (s : State) : (currentEmission s).WellFormedFor s.cfg.ctx :=
  ⟨rfl, packet_length s, s.len_le_cap⟩

theorem made_wellFormed {s : State} {b : Byte} {e : Emission} (h : e ∈ made s b) : e.WellFormedFor s.cfg.ctx := by
  unfold made at h
  split at h
  next =>
    obtain rfl := List.mem_singleton.mp h
    exact currentEmission_wellFormed s
  next => cases h

theorem feedMade_wellFormed {s : State} {c : List Byte} {e : Emission} (h : e ∈ feedMade s c) :
    e.WellFormedFor s.cfg.ctx := by
  induction c generalizing s with
  | nil => cases h
  | cons b c ih =>
    obtain hfirst | hrest := List.mem_append.mp h
    · exact made_wellFormed hfirst
    · exact byteStep_cfg s b ▸ ih hrest

/-- Settles O44: only a chunk adds to the record, and it adds what its fold emitted, each to `cfg.sink`. -/
theorem deliveredRecordOnlyGrows : Obligations.DeliveredRecordOnlyGrows := by
  intro s t hout hstep
  obtain ⟨-, rfl⟩ | ⟨r, rest, -, ⟨k, x, -, rfl⟩ | ⟨-, -, rfl⟩ | ⟨c, -, -, rfl⟩⟩ := step_cases hstep
  · exact ⟨[], by simp⟩
  · exact ⟨[], by simp⟩
  · exact ⟨[], by simp⟩
  · rw [writeLoop_eq c { s with inputs := rest } hout]
    refine ⟨_, rfl, fun d hd => ?_⟩
    obtain ⟨e, he, rfl⟩ := List.mem_map.mp hd
    exact ⟨rfl, feedMade_wellFormed (s := { s with inputs := rest }) he⟩

/-! ### Framed payloads (R71, R101, R103) -/

/-- IDLE by the fields (R36). -/
theorem State.isIdle_iff (s : State) :
    s.IsIdle ↔ s.inPacket = false ∧ s.pendingEscape = false ∧ s.len.val = 0 := by
  unfold State.IsIdle State.framerState
  cases s.inPacket <;> cases s.pendingEscape <;> simp

theorem stateReset_isIdle (s : State) : (stateReset s).IsIdle := ⟨rfl, rfl⟩

theorem byteStep_startByte {s : State} (h : s.pendingEscape = false) :
    byteStep s Config.params.startByte = openPacket s := by
  rw [byteStep, h]; rfl

theorem byteStep_endByte {s : State} (hpe : s.pendingEscape = false) (hopen : s.inPacket = true) :
    byteStep s Config.params.endByte = stateReset (emit s) := by
  have hend : byteStep s Config.params.endByte = endStep s := by rw [byteStep, hpe]; rfl
  rw [hend, endStep, if_pos hopen]

theorem byteStep_escapeByte {s : State} (h : s.pendingEscape = false) :
    byteStep s Config.params.escapeByte = setPendingEscape true s := by
  rw [byteStep, h]; rfl

theorem byteStep_pending {s : State} (h : s.pendingEscape = true) (b : Byte) :
    byteStep s b = setPendingEscape false (append (unescape Config.params b) s) := by
  rw [byteStep, h]; rfl

theorem byteStep_of_not_control {s : State} (h : s.pendingEscape = false) {b : Byte}
    (hb : Config.params.isControl b = false) : byteStep s b = append b s := by
  obtain ⟨⟨hstart, hend⟩, hesc⟩ : (b ≠ Config.params.startByte ∧ b ≠ Config.params.endByte) ∧
      b ≠ Config.params.escapeByte := by simpa [Params.isControl] using hb
  have hclass : classify Config.params s.pendingEscape b = .data := by simp [classify, h, hstart, hend, hesc]
  rw [byteStep, hclass]; rfl

/-- The escaped form of a control value unescapes to it (R96, R103). -/
theorem unescape_or_escapeMask {v : Byte} (h : Config.params.isControl v = true) :
    unescape Config.params (v ||| Config.params.escapeMask) = v := by
  obtain (rfl | rfl) | rfl : (v = Config.params.startByte ∨ v = Config.params.endByte) ∨
      v = Config.params.escapeByte := by simpa [Params.isControl] using h
  all_goals decide

/-- With no escape pending before, Append under a pending escape that is then cleared is Append. -/
theorem setPendingEscape_append (v : Byte) {s : State} (h : s.pendingEscape = false) :
    setPendingEscape false (append v (setPendingEscape true s)) = append v s := by
  obtain ⟨buf, len, inPacket, pendingEscape⟩ := s
  obtain rfl : pendingEscape = false := h
  unfold append
  cases inPacket
  · rfl
  · by_cases hroom : len.val < Config.cap
    · simp [hroom, setPendingEscape, store, memWrite]
    · simp [hroom, setPendingEscape, stateReset]

/-- Escaped or not, a payload byte the sender sends is appended as it is (R97, R101). -/
theorem feed_escByte {s : State} (h : s.pendingEscape = false) (v : Byte) :
    feed s (escByte Config.params v) = append v s := by
  unfold escByte
  split
  next hctl =>
    rw [feed_cons, byteStep_escapeByte h, feed_cons, byteStep_pending rfl, unescape_or_escapeMask hctl, feed_nil,
      setPendingEscape_append v h]
  next hplain => rw [feed_cons, feed_nil, byteStep_of_not_control h (by simpa using hplain)]

/-- With its packet open and no escape pending, `t` has `payload` after the packet of `s`, and has emitted nothing since. -/
structure State.GrownBy (s t : State) (payload : List Byte) : Prop where
  inPacket      : t.inPacket = true
  pendingEscape : t.pendingEscape = false
  packet        : t.packet = s.packet ++ payload
  out           : t.out = s.out

/-- An open packet takes the encoding of a payload for which it has room. -/
theorem feed_enc_grownBy {s : State} {payload : List Byte} (hopen : s.inPacket = true) (hpe : s.pendingEscape = false)
    (hroom : s.len.val + payload.length ≤ Config.cap) :
    s.GrownBy (feed s (enc Config.params payload)) payload := by
  induction payload generalizing s with
  | nil => exact ⟨hopen, hpe, (List.append_nil _).symm, rfl⟩
  | cons v vs ih =>
    rw [List.length_cons] at hroom
    have hlt : s.len.val < Config.cap := by omega
    have hroom' : s.len.val + 1 + vs.length ≤ Config.cap := by omega
    rw [enc, feed_append, feed_escByte hpe, append_room v hopen hlt]
    obtain ⟨hopen', hpe', hpacket, hout⟩ := ih (s := store v s hlt) hopen hpe hroom'
    exact ⟨hopen', hpe', by rw [hpacket, packet_store, List.append_assoc, List.singleton_append], hout⟩

@[simp] theorem feed_cfg (s : State) (c : List Byte) : (feed s c).cfg = s.cfg := by
  obtain ⟨-, hcfg, -⟩ := feed_frame s c
  exact hcfg

theorem State.deliveryOf_congr {s t : State} (h : t.cfg = s.cfg) (payload : List Byte) :
    t.deliveryOf payload = s.deliveryOf payload := by
  rw [State.deliveryOf, State.deliveryOf, h]

theorem currentEmission_eq (s : State) : currentEmission s = (s.deliveryOf s.packet).emission := by
  simp [currentEmission, State.deliveryOf]

/-- END emits the payload a packet has grown by since it was opened (R153, R157). -/
theorem State.GrownBy.byteStep_endByte {s t : State} {payload : List Byte} (h : (openPacket s).GrownBy t payload)
    (hcfg : t.cfg = s.cfg) :
    (byteStep t Config.params.endByte).IsIdle ∧
      (byteStep t Config.params.endByte).out = s.out ++ [(s.deliveryOf payload).emission] := by
  have hpacket : t.packet = payload := by rw [h.packet, packet_of_len_zero (openPacket s) rfl, List.nil_append]
  rw [Machine.byteStep_endByte h.pendingEscape h.inPacket, stateReset_out, emit_out, h.out, currentEmission_eq, hpacket,
    State.deliveryOf_congr hcfg]
  exact ⟨stateReset_isIdle (emit t), rfl⟩

theorem feed_frame_eq {s : State} (hpe : s.pendingEscape = false) (payload : List Byte) :
    feed s (frame Config.params payload) =
      byteStep (feed (openPacket s) (enc Config.params payload)) Config.params.endByte := by
  rw [frame, feed_append, feed_append, ← byteStep_startByte hpe]
  rfl

/-- From IDLE, the frame of a payload that fits gives one emission and leads back to IDLE (R103). -/
theorem feed_frame_of_idle {s : State} {payload : List Byte} (hidle : s.IsIdle) (hfit : payload.length ≤ Config.cap) :
    (feed s (frame Config.params payload)).IsIdle ∧
      (feed s (frame Config.params payload)).out = s.out ++ [(s.deliveryOf payload).emission] := by
  obtain ⟨-, hpe, -⟩ := s.isIdle_iff.mp hidle
  rw [feed_frame_eq hpe]
  exact (feed_enc_grownBy rfl rfl (by simpa using hfit)).byteStep_endByte (feed_cfg (openPacket s) _)

/-- Frames one after another: each starts in the IDLE in which the one before it ended (R71). -/
theorem feed_frames_of_idle {s : State} {payloads : List (List Byte)} (hidle : s.IsIdle)
    (hfit : ∀ p ∈ payloads, p.length ≤ Config.cap) :
    (feed s (payloads.flatMap (frame Config.params))).IsIdle ∧
      (feed s (payloads.flatMap (frame Config.params))).out = s.out ++ payloads.map fun p => (s.deliveryOf p).emission := by
  induction payloads generalizing s with
  | nil => exact ⟨hidle, (List.append_nil _).symm⟩
  | cons p ps ih =>
    obtain ⟨hp, hps⟩ := List.forall_mem_cons.mp hfit
    obtain ⟨hidle', hout⟩ := feed_frame_of_idle hidle hp
    obtain ⟨hidleAll, houtAll⟩ := ih hidle' hps
    rw [List.flatMap_cons, feed_append]
    refine ⟨hidleAll, ?_⟩
    rw [houtAll, hout, List.append_assoc]
    simp only [State.deliveryOf_congr (feed_cfg s _), List.map_cons, List.singleton_append]

/-- WRITE delivers to `cfg.sink` what the fold of Step emitted (R123, R128). -/
theorem afterChunk_delivered {s : State} {c : List Byte} {payloads : List (List Byte)}
    (h : (feed s c).out = s.out ++ payloads.map fun p => (s.deliveryOf p).emission) :
    (afterChunk s c).delivered = s.delivered ++ payloads.map s.deliveryOf := by
  have hmade : feedMade s c = payloads.map fun p => (s.deliveryOf p).emission :=
    List.append_cancel_left ((feed_out s c).symm.trans h)
  show s.delivered ++ (feedMade s c).map (Delivery.mk s.cfg.sink) = s.delivered ++ payloads.map s.deliveryOf
  rw [hmade, List.map_map]
  rfl

/-- Settles O33: by induction over the payloads, each frame leads from IDLE to IDLE with one emission, and the WRITE delivers what the
fold emitted. -/
theorem concatenatedFramesInOrder : Obligations.ConcatenatedFramesInOrder := by
  intro s payloads hready hidle hfit
  obtain ⟨hidle', hout⟩ := feed_frames_of_idle hidle hfit
  exact ⟨_, exec_write_ready hready _, afterChunk_delivered hout, hidle'⟩

end Sys2Proof.Machine

/-! ## Encoding: decode, operands and the sender's frames (30_encoding.md) -/

namespace Sys2Proof

/-! ### The decode table (R91 to R93) -/

@[simp] theorem classify_startByte (p : Params) : classify p false p.startByte = .start := by
  simp [classify]

theorem classify_endByte {p : Params} (h : p.startByte ≠ p.endByte) : classify p false p.endByte = .endPacket := by
  simp [classify, h.symm]

theorem classify_escapeByte {p : Params} (hs : p.startByte ≠ p.escapeByte) (he : p.endByte ≠ p.escapeByte) :
    classify p false p.escapeByte = .esc :=
  (Machine.classify_eq_esc_iff hs.symm he.symm false _).mpr ⟨rfl, rfl⟩

theorem classify_of_not_control {p : Params} {b : Byte} (h : p.isControl b = false) : classify p false b = .data := by
  obtain ⟨⟨hstart, hend⟩, hesc⟩ : (b ≠ p.startByte ∧ b ≠ p.endByte) ∧ b ≠ p.escapeByte := by
    simpa [Params.isControl] using h
  simp [classify, hstart, hend, hesc]

/-- Everything the table can answer: ESCAPED_DATA under a pending escape, else the first row that matches. -/
theorem classify_cases (p : Params) (pe : Bool) (b : Byte) :
    (pe = true ∧ classify p pe b = .escapedData) ∨
    (pe = false ∧
      ((b = p.startByte ∧ classify p pe b = .start) ∨
       (b = p.endByte ∧ classify p pe b = .endPacket) ∨
       (b = p.escapeByte ∧ classify p pe b = .esc) ∨
       (p.isControl b = false ∧ classify p pe b = .data))) := by
  cases pe with
  | true => exact .inl ⟨rfl, rfl⟩
  | false =>
    refine .inr ⟨rfl, ?_⟩
    unfold classify
    by_cases hstart : b = p.startByte
    · exact .inl ⟨hstart, by simp [hstart]⟩
    by_cases hend : b = p.endByte
    · exact .inr (.inl ⟨hend, by simp [hstart, ← hend]⟩)
    by_cases hesc : b = p.escapeByte
    · exact .inr (.inr (.inl ⟨hesc, by simp [hstart, hend, ← hesc]⟩))
    · exact .inr (.inr (.inr ⟨by simp [Params.isControl, hstart, hend, hesc], by simp [hstart, hend, hesc]⟩))

theorem decodeByteWith_eq {p : Params} {pe : Bool} {b : Byte} {k : ByteClass} (h : classify p pe b = k) :
    decodeByteWith p pe b = k.toInstr b := by
  rw [decodeByteWith, h]

/-- Settles O46: the byte of each instruction selects its row. START needs nothing of R13, END and ESC that the rows above them have
another value, and DATA that its operand is no control value (R93). -/
theorem decodeOfEncode : Obligations.DecodeOfEncode := by
  intro p i hp hwf hbyte
  obtain ⟨hse, hsx, hex, -⟩ := p.wf_iff.mp hp
  cases i with
  | escapedData b => exact ⟨b, rfl, rfl⟩
  | start => exact ⟨p.startByte, rfl, decodeByteWith_eq (classify_startByte p)⟩
  | endPacket => exact ⟨p.endByte, rfl, decodeByteWith_eq (classify_endByte hse)⟩
  | esc => exact ⟨p.escapeByte, rfl, decodeByteWith_eq (classify_escapeByte hsx hex)⟩
  | data b =>
    have hplain : p.isControl b = false := by simpa [Instr.wellFormed] using hwf
    exact ⟨b, rfl, decodeByteWith_eq (classify_of_not_control hplain)⟩
  | create k x | destroy | write c => cases hbyte

/-- Settles O47: the row that matches fixes the byte, or, for DATA, excludes the three control values. -/
theorem encodeOfDecode : Obligations.EncodeOfDecode := by
  intro p pe b
  obtain ⟨rfl, hk⟩ | ⟨rfl, ⟨rfl, hk⟩ | ⟨rfl, hk⟩ | ⟨rfl, hk⟩ | ⟨hplain, hk⟩⟩ := classify_cases p pe b <;>
    rw [decodeByteWith_eq hk]
  · exact ⟨rfl, rfl, rfl⟩
  · exact ⟨rfl, rfl, rfl⟩
  · exact ⟨rfl, rfl, rfl⟩
  · exact ⟨rfl, rfl, rfl⟩
  · exact ⟨rfl, by simp [ByteClass.toInstr, Instr.wellFormed, hplain], rfl⟩

/-- Settles O49: the class is the first row that matches, and each row gives its instruction. -/
theorem classesOfTheDecodeTable : Obligations.ClassesOfTheDecodeTable := by
  refine ⟨fun b => rfl, fun b => ?_⟩
  rw [decodeByte, decodeByteWith, classify, if_neg (by decide)]
  simp only [apply_ite (ByteClass.toInstr · b)]
  rfl

/-- R93: with no escape pending, DATA is decoded exactly from the bytes that are no control value. -/
theorem decodeByte_false_beq_data (b : Byte) : (decodeByte false b == .data b) = !Config.params.isControl b := by
  obtain ⟨h, -⟩ | ⟨-, ⟨rfl, -⟩ | ⟨rfl, -⟩ | ⟨rfl, -⟩ | ⟨hplain, hk⟩⟩ := classify_cases Config.params false b
  · cases h
  · rfl
  · rfl
  · rfl
  · simp [decodeByte, decodeByteWith_eq hk, hplain, ByteClass.toInstr]

/-- Settles O48: the words are closed facts, and of the 256 bytes three are control values. -/
theorem decodedWords : Obligations.DecodedWords := by
  refine ⟨rfl, rfl, rfl, rfl, rfl, rfl, rfl, rfl, ?_⟩
  simp only [decodeByte_false_beq_data]
  decide +kernel

/-- R13, second sentence, for any control value. -/
theorem Params.and_escapeMask_of_isControl {p : Params} {v : Byte} (hp : p.maskClear = true) (hv : p.isControl v = true) :
    v &&& p.escapeMask = 0 := by
  obtain ⟨⟨hstart, hend⟩, hesc⟩ : (p.startByte &&& p.escapeMask = 0 ∧ p.endByte &&& p.escapeMask = 0) ∧
      p.escapeByte &&& p.escapeMask = 0 := by simpa [Params.maskClear] using hp
  obtain (rfl | rfl) | rfl : (v = p.startByte ∨ v = p.endByte) ∨ v = p.escapeByte := by
    simpa [Params.isControl] using hv
  · exact hstart
  · exact hend
  · exact hesc

namespace Machine

/-! ### The unescape transform (R95 to R97) -/

theorem or_and_not_mask (b m : Byte) : (b ||| m) &&& ~~~m = b &&& ~~~m := by
  ext i hi
  cases hm : m[i] <;> simp [hm]

theorem and_not_or_mask (b m : Byte) : (b &&& ~~~m) ||| m = b ||| m := by
  ext i hi
  cases hm : m[i] <;> simp [hm]

theorem unescape_eq_and (b : Byte) : unescape Config.params b = b &&& 0xDF := rfl

/-- Settles O50: the mask is the single bit 5, so its complement keeps every other bit. -/
theorem unescapeClearsBitFive : Obligations.UnescapeClearsBitFive := by
  refine fun b => ⟨unescape_eq_and b, fun i => ?_⟩
  have hmask : unescape Config.params b = b &&& ~~~(BitVec.twoPow 8 5) := rfl
  rw [hmask]
  by_cases hi : i < 8
  · simp [hi, bne, beq_eq_decide]
  · simp [BitVec.getLsbD_of_ge b i (by omega)]

/-- AND-NOT of a mask and OR of it forget the same bits. -/
theorem and_not_mask_eq_iff (b c m : Byte) : b &&& ~~~m = c &&& ~~~m ↔ b ||| m = c ||| m := by
  constructor
  · intro h
    rw [← and_not_or_mask b, h, and_not_or_mask]
  · intro h
    rw [← or_and_not_mask b, h, or_and_not_mask]

/-- Settles O51: the first part for every mask, the listed values one by one. -/
theorem unescapeConsequences : Obligations.UnescapeConsequences :=
  ⟨fun b c => and_not_mask_eq_iff b c 0x20, rfl, rfl, rfl, rfl, rfl, rfl, rfl, rfl, rfl, rfl⟩

/-- Where a byte has the mask bits clear, setting them is undone by either reading of the transform (C1, D20). -/
theorem unescape_or_mask {p : Params} {v : Byte} (h : v &&& p.escapeMask = 0) : unescape p (v ||| p.escapeMask) = v := by
  have hbit : ∀ i (hi : i < 8), (v[i] && p.escapeMask[i]) = false := fun i hi => by
    simpa using congrArg (·[i]) h
  unfold unescape
  cases p.unescape with
  | andNot | xor =>
    ext i hi
    have hi' := hbit i hi
    cases hm : p.escapeMask[i] <;> simp_all

/-- Settles O52: R13's second condition says that the mask bits of a control value are clear. -/
theorem senderEscapesReceiverUnescapes : Obligations.SenderEscapesReceiverUnescapes := fun _ _ hp =>
  ⟨fun hctl => ⟨if_pos hctl, unescape_or_mask (Params.and_escapeMask_of_isControl hp hctl)⟩,
    fun hplain => if_neg (by simp [hplain])⟩

/-! ### The escape pair (R97) -/

theorem feed_escapePair {s : State} (h : s.pendingEscape = false) (x : Byte) :
    feed s [Config.params.escapeByte, x] = append (unescape Config.params x) s := by
  rw [feed_cons, byteStep_escapeByte h, feed_cons, byteStep_pending rfl, feed_nil, setPendingEscape_append _ h]

/-- A chunk that emits nothing leaves what the fold of Step leaves: there is nothing to deliver. -/
theorem afterChunk_eq_feed {s : State} {c : List Byte} (hout : s.out = []) (hquiet : (feed s c).out = []) :
    afterChunk s c = feed s c := by
  have hmade : feedMade s c = [] := by
    rw [feed_out, hout] at hquiet
    exact hquiet
  obtain ⟨-, -, hdelivered, hfaults, -, -, hcalls⟩ := feed_frame s c
  have hsame : (feed s c).withOutput [] s.delivered s.faults s.sinkCalls = feed s c := by
    rw [← hquiet, ← hdelivered, ← hfaults, ← hcalls]
    rfl
  simpa [afterChunk, hmade] using hsame

/-- Settles O30: the pair is one Append, which emits nothing, so the WRITE has nothing to deliver. -/
theorem escapePairIsOneByte : Obligations.EscapePairIsOneByte := by
  intro s x hready hpe
  have hpair : feed s [0x10, x] = append (x &&& 0xDF) s := feed_escapePair hpe x
  have hquiet : (feed s [0x10, x]).out = [] := by rw [hpair, append_out, hready.outEmpty]
  rw [exec_write_ready hready, afterChunk_eq_feed hready.outEmpty hquiet, hpair]

/-! ### Frames (R101 to R104) -/

/-- Settles O32: the fold over the frame emits the payload once and ends in IDLE; WRITE delivers that emission. -/
theorem frameRoundTrip : Obligations.FrameRoundTrip := by
  intro s payload hready hidle hfit
  obtain ⟨hidle', hout⟩ := feed_frame_of_idle hidle hfit
  exact ⟨_, exec_write_ready hready _, afterChunk_delivered (payloads := [payload]) hout, hidle'⟩

theorem enc_length (p : Params) (payload : List Byte) :
    (enc p payload).length = payload.length + escapeCount p payload := by
  induction payload with
  | nil => rfl
  | cons v vs ih =>
    rw [escapeCount] at ih ⊢
    rw [enc, List.length_append, ih, List.length_cons, List.countP_cons, escByte]
    split <;> simp <;> omega

theorem frame_length (p : Params) (payload : List Byte) :
    (frame p payload).length = 2 + payload.length + escapeCount p payload := by
  simp only [frame, List.length_append, enc_length, List.length_singleton]
  omega

theorem escapeCount_le_length (p : Params) (payload : List Byte) : escapeCount p payload ≤ payload.length :=
  List.countP_le_length

/-- Settles O53: each payload byte takes one wire byte, or two where it is escaped; at most all of them are. -/
theorem frameLength : Obligations.FrameLength := by
  have hcap : Config.cap = 510 := rfl
  refine ⟨frame_length Config.params, fun payload hfit => ?_, ?_⟩
  · have hcount := escapeCount_le_length Config.params payload
    rw [frame_length]
    omega
  · have hall : escapeCount Config.params (List.replicate Config.cap 0x02) = Config.cap := by
      rw [escapeCount, List.countP_replicate, if_pos (by decide)]
    rw [frame_length, hall, List.length_replicate, hcap]

end Machine

end Sys2Proof

/-! ## Host operations: the life checks, WRITE, and the block as its host sees it (40_host_operations.md) -/

namespace Sys2Proof.Machine

/-! ### DESTROY (R122) -/

theorem exec_destroy_unmade {s : State} (h : s.life = .unmade) : exec .destroy s = .fault .notCreated := by
  simp [exec, execDestroy, h]

theorem exec_destroy_dead {s : State} (h : s.life = .dead) : exec .destroy s = .fault .doubleDestroy := by
  simp [exec, execDestroy, h]

theorem exec_destroy_live {s : State} (h : s.life = .live) : exec .destroy s = .next { s with life := .dead } := by
  simp [exec, execDestroy, h]

/-- Settles O7: the live arm of `execDestroy`. -/
theorem destroyEndsLife : Obligations.DestroyEndsLife := fun _ h => exec_destroy_live h

/-- Settles O8: the two other arms of `execDestroy`. -/
theorem destroyFaults : Obligations.DestroyFaults := fun _ => ⟨exec_destroy_unmade, exec_destroy_dead⟩

/-! ### WRITE byte by byte (R123, R126) -/

theorem exec_write_unmade {s : State} (h : s.life = .unmade) (c : List Byte) : exec (.write c) s = .fault .notCreated := by
  simp [exec, execWrite, whenLive, h]

theorem exec_write_dead {s : State} (h : s.life = .dead) (c : List Byte) : exec (.write c) s = .fault .useAfterDestroy := by
  simp [exec, execWrite, whenLive, h]

@[simp] theorem deliverOut_life (s : State) : (deliverOut s).life = s.life := by
  rw [deliverOut_eq]; rfl

/-- Settles O24: the loop of WRITE is one byte step, its delivery, and the loop over the rest, before which `life` is still Live,
so that the rest is itself a WRITE. -/
theorem writeTakesBytesInOrder : Obligations.WriteTakesBytesInOrder := by
  refine fun s => ⟨exec_write_unmade, exec_write_dead, fun hlive => ⟨exec_write_live hlive [], fun b c => ?_⟩⟩
  have hlive' : (deliverOut (byteStep s b)).life = .live := by simp [hlive]
  rw [exec_decodeByte, andThen_next, exec_write_live hlive, exec_write_live hlive', writeLoop_cons]

/-- Settles O28: while `life` is Live the loop over `a ++ b` is the loop over `b` after that over `a`, which leaves it Live; otherwise
the first chunk already meets the fault that the whole meets. -/
theorem chunkBoundariesAreInvisible : Obligations.ChunkBoundariesAreInvisible := by
  intro s a b
  cases hlife : s.life with
  | unmade => rw [exec_write_unmade hlife, exec_write_unmade hlife, andThen_fault]
  | dead => rw [exec_write_dead hlife, exec_write_dead hlife, andThen_fault]
  | live =>
    have hlive' : (writeLoop a s).life = .live := (writeLoop_life_cfg a s).1.trans hlife
    rw [exec_write_live hlife, exec_write_live hlife, andThen_next, exec_write_live hlive', writeLoop_append]

/-! ### WRITE as the fold of Step (R126 to R129) -/

theorem feed_out_of_empty {s : State} (h : s.out = []) (c : List Byte) : (feed s c).out = feedMade s c := by
  rw [feed_out, h, List.nil_append]

/-- Settles O25: the WRITE leaves `afterChunk`, and with nothing undelivered before, the output of the fold is what the fold made. -/
theorem writeCompletesAsFoldOfStep : Obligations.WriteCompletesAsFoldOfStep := by
  intro s c hready
  refine ⟨?_, fun hquiet => callsDuring_quiet hquiet _⟩
  rw [exec_write_ready hready, feed_out_of_empty hready.outEmpty]
  rfl

/-- How many deliveries a chunk causes. -/
theorem afterChunk_delivered_length_sub (s : State) (c : List Byte) :
    (afterChunk s c).delivered.length - s.delivered.length = (feedMade s c).length := by
  simp [afterChunk, State.withOutput]

/-- The calls a sink makes reach nothing but the fault record and the list of calls itself. -/
theorem afterChunk_without_sinkCalls (s : State) (c : List Byte) :
    afterChunk { s with sinkCalls := [] } c = { afterChunk s c with sinkCalls := [], faults := s.faults } := by
  have hs : ({ s with sinkCalls := [] } : State) = s.withOutput s.out s.delivered s.faults [] := rfl
  rw [hs, afterChunk, feed_withOutput, feedMade_withOutput]
  simp [afterChunk, State.withOutput, callsDuring]

/-- Settles O27: without the calls the WRITE leaves the same `afterChunk`, but for the record and the calls used up. -/
theorem reentrantCallIsRefused : Obligations.ReentrantCallIsRefused := by
  intro s c hready
  have hready' : ({ s with sinkCalls := [] } : State).Ready := ⟨hready.live, hready.outEmpty⟩
  refine ⟨afterChunk s c, exec_write_ready hready c, ?_, ?_, ?_⟩
  · rw [exec_write_ready hready', afterChunk_without_sinkCalls]
  · rw [afterChunk_delivered_length_sub]; rfl
  · rw [afterChunk_delivered_length_sub]; rfl

/-! ### The look-ahead scan (R127) -/

/-- Settles O29: the scan differs from the fold only where it takes an ESC and the next byte at once, and there the fold's two steps
are one Append (R97). -/
theorem lookAheadFormAgrees : Obligations.LookAheadFormAgrees := by
  intro s c
  induction s, c using lookAheadFeed.induct with
  | case1 s => rfl
  | case2 s b => rfl
  | case3 s b x rest hesc ih =>
    obtain ⟨hpe, rfl⟩ := hesc
    have hpair : feed s (Config.params.escapeByte :: x :: rest) = feed (append (unescape Config.params x) s) rest := by
      rw [← feed_escapePair hpe x, ← feed_append]; rfl
    rw [lookAheadFeed, if_pos ⟨hpe, rfl⟩, ih, hpair]
  | case4 s b x rest hplain ih => rw [lookAheadFeed, if_neg hplain, ih, feed_cons s b]

/-! ### The step of the machine (R125, R130, R131) -/

theorem offerByte_live {s : State} (h : s.life = .live) (b : Byte) :
    offerByte b s = andThen (exec (decodeByte s.pendingEscape b) s) (fun t => .next (deliverOut t)) :=
  whenLive_live (f := fun s => andThen (exec (decodeByte s.pendingEscape b) s) (fun t => .next (deliverOut t))) h

/-- A request placed in front is the one the next step performs. -/
theorem step_place (r : Request) (s : State) : step (place r s) = perform r s :=
  step_request rfl

theorem withFetchWord_byte (s : State) (b : Byte) : s.withFetchWord 8 b.toNat = place (.byte b) s := by
  rw [State.withFetchWord, placeWord, if_pos ⟨rfl, b.isLt⟩, BitVec.ofNat_toNat, BitVec.setWidth_eq]

/-- Settles O40: a step performs the oldest request, and an offered byte is a WRITE of it alone. -/
theorem offeredByteIsWriteOfOne : Obligations.OfferedByteIsWriteOfOne := fun s b rest h => by
  rw [step_request h]
  exact perform_eq_exec (.byte b) { s with inputs := rest }

/-- Settles O39: a step performs the oldest request; for a byte that is `offerByte`, and before Create or after
Destroy it is the fault of the WRITE it stands for. -/
theorem stepRunsDecodedInstruction : Obligations.StepRunsDecodedInstruction := by
  refine ⟨fun s => step_idle, fun s b rest h => ⟨fun hlive => ?_, fun hunmade => ?_, fun hdead => ?_⟩, fun s o rest h => ?_,
    fun s b hlive => ?_⟩
  · rw [step_request h]
    exact offerByte_live (s := { s with inputs := rest }) hlive b
  · rw [offeredByteIsWriteOfOne s b rest h]
    exact exec_write_unmade (s := { s with inputs := rest }) hunmade [b]
  · rw [offeredByteIsWriteOfOne s b rest h]
    exact exec_write_dead (s := { s with inputs := rest }) hdead [b]
  · rw [step_request h]
    rfl
  · rw [withFetchWord_byte, step_place]
    exact offerByte_live hlive b

/-! ### The signal view (R132) -/

theorem pinStep_of_request {w : Nat} {k : Sink} {p : InPins w} {r : Request} (h : pinRequest k p = some (some r)) (s : State) :
    pinStep k p s = exec r.asOp.toInstr s := by
  rw [pinStep, h]
  exact perform_eq_exec r s

theorem pinStep_of_none_asserted {w : Nat} {k : Sink} {p : InPins w} (h : pinRequest k p = some none) (s : State) :
    pinStep k p s = .next s := by
  rw [pinStep, h]

theorem pinStep_of_overlap {w : Nat} {k : Sink} {p : InPins w} (h : pinRequest k p = none) (s : State) :
    pinStep k p s = .refused .overlappingSignals := by
  rw [pinStep, h]

theorem pinRequest_of_overlap {w : Nat} (k : Sink) {p : InPins w}
    (h : (p.create && p.destroy || p.create && p.inValid || p.destroy && p.inValid) = true) : pinRequest k p = none := by
  obtain ⟨create, ctxIn, destroy, inValid, inByte⟩ := p
  revert h
  cases create <;> cases destroy <;> cases inValid <;> simp [pinRequest]

/-- Settles O58: one asserted signal is one request, and a request is its host operation. -/
theorem signalsDriveTransactions : Obligations.SignalsDriveTransactions := by
  intro w k p s
  refine ⟨fun hc hd hv => ?_, fun hc hd hv => ?_, fun hc hd hv => ?_, fun hc hd hv => ?_, fun h => ?_⟩
  · exact pinStep_of_request (r := .byte p.inByte) (by simp [pinRequest, hc, hd, hv]) s
  · exact pinStep_of_request (r := .op (.create k p.ctxIn.toNat)) (by simp [pinRequest, hc, hd, hv]) s
  · exact pinStep_of_request (r := .op .destroy) (by simp [pinRequest, hc, hd, hv]) s
  · exact pinStep_of_none_asserted (by simp [pinRequest, hc, hd, hv]) s
  · exact pinStep_of_overlap (pinRequest_of_overlap k h) s

theorem outPins_of_quiet {w : Nat} {s t : State} (h : t.delivered = s.delivered) : (outPins w s t).outValid = false := by
  simp [outPins, h]

theorem outPins_of_delivery {w : Nat} {s t : State} {d : Delivery} (h : t.delivered = s.delivered ++ [d]) :
    outPins w s t = { outValid := true, outCtx := BitVec.ofNat w d.emission.ctx, outLen := BitVec.ofNat _ d.emission.len,
                      outData := d.emission.data } := by
  simp [outPins, h]

/-- The class END, for parameters whose end byte is not the row above it in the table (R13, R92). -/
theorem classify_eq_endPacket_iff {p : Params} (h : p.startByte ≠ p.endByte) (pe : Bool) (b : Byte) :
    classify p pe b = .endPacket ↔ pe = false ∧ b = p.endByte := by
  constructor
  · intro hk
    obtain ⟨-, hk'⟩ | ⟨hpe, ⟨-, hk'⟩ | ⟨hb, -⟩ | ⟨-, hk'⟩ | ⟨-, hk'⟩⟩ := classify_cases p pe b
    case inr.inr.inl => exact ⟨hpe, hb⟩
    all_goals rw [hk'] at hk; cases hk
  · rintro ⟨rfl, rfl⟩
    exact classify_endByte h

/-- What WRITE of one byte adds to the record: what its byte step makes (R157). -/
theorem afterChunk_singleton_delivered (s : State) (b : Byte) :
    (afterChunk s [b]).delivered = s.delivered ++ (made s b).map (Delivery.mk s.cfg.sink) := by
  simp [afterChunk, State.withOutput, feedMade]

/-- Settles O59: the byte END with a packet open delivers the current emission, whose length the 9-bit signal holds; every other byte
delivers nothing. -/
theorem outputSignalsShowEmission : Obligations.OutputSignalsShowEmission := by
  intro w s b hready
  refine ⟨afterChunk s [b], exec_write_ready hready [b], ?_⟩
  have hdelivered := afterChunk_singleton_delivered s b
  have hend : classify Config.params s.pendingEscape b = .endPacket ↔ s.pendingEscape = false ∧ b = 0x03 :=
    classify_eq_endPacket_iff (by decide) s.pendingEscape b
  split
  next h =>
    obtain ⟨hpe, hb, hopen⟩ := h
    rw [made, if_pos ⟨hend.mpr ⟨hpe, hb⟩, hopen⟩] at hdelivered
    rw [outPins_of_delivery hdelivered]
    exact ⟨rfl, rfl, s.lenReg_toNat, rfl⟩
  next h =>
    have hnone : ¬ (classify Config.params s.pendingEscape b = .endPacket ∧ s.inPacket = true) := by
      rw [hend, and_assoc]
      exact h
    rw [made, if_neg hnone, List.map_nil, List.append_nil] at hdelivered
    exact outPins_of_quiet hdelivered

end Sys2Proof.Machine

/-! ## Byte operations: START, END, ESC, DATA and ESCAPED_DATA, and streams of them (41_byte_operations.md) -/

namespace Sys2Proof.Machine

/-! ### The equations of END and of the packet under Append (R153, R156) -/

theorem endStep_of_open {s : State} (h : s.inPacket = true) : endStep s = stateReset (emit s) := by
  rw [endStep, if_pos h]

theorem endStep_of_closed {s : State} (h : s.inPacket = false) : endStep s = stateReset s := by
  rw [endStep, if_neg (by simp [h])]

theorem byteStep_endByte_eq_endStep {s : State} (h : s.pendingEscape = false) :
    byteStep s Config.params.endByte = endStep s := by
  rw [byteStep, h]; rfl

/-- By INV1, a packet with no room is full. -/
theorem append_no_room (v : Byte) {s : State} (h : s.inPacket = true) (hl : ¬ s.len.val < Config.cap) :
    append v s = stateReset s :=
  append_full v h (le_antisymm s.len_le_cap (not_lt.mp hl))

/-- If the packet is still open after Append, the value stands at its end. -/
theorem packet_append_of_open (v : Byte) {s : State} (h : (append v s).inPacket = true) :
    (append v s).packet = s.packet ++ [v] := by
  obtain ⟨hclosed, heq⟩ | ⟨-, -, heq⟩ | ⟨-, hroom, heq⟩ := append_cases v s <;> rw [heq] at h ⊢
  · simp [hclosed] at h
  · cases h
  · exact packet_store v s hroom

/-! ### Stale bytes (R161)

The relation `SameButStale` is kept by each named update, hence by a byte step, by the delivery after it, and by the loop of
WRITE. -/

namespace State.SameButStale

variable {s t : State}

theorem stateReset (h : s.SameButStale t) : (stateReset s).SameButStale (stateReset t) :=
  ⟨rfl, rfl, rfl, h.life, h.cfg, h.out, h.delivered, h.faults, h.sinkCalls, fun hopen => by cases hopen⟩

theorem openPacket (h : s.SameButStale t) : (openPacket s).SameButStale (openPacket t) :=
  ⟨rfl, rfl, rfl, h.life, h.cfg, h.out, h.delivered, h.faults, h.sinkCalls, fun _ => by
    rw [packet_of_len_zero (Machine.openPacket s) rfl, packet_of_len_zero (Machine.openPacket t) rfl]⟩

theorem setPendingEscape (h : s.SameButStale t) (v : Bool) :
    (setPendingEscape v s).SameButStale (setPendingEscape v t) :=
  ⟨h.len, h.inPacket, rfl, h.life, h.cfg, h.out, h.delivered, h.faults, h.sinkCalls, h.packet⟩

theorem store (h : s.SameButStale t) (v : Byte) (hopen : s.inPacket = true) (hs : s.len.val < Config.cap)
    (ht : t.len.val < Config.cap) : (store v s hs).SameButStale (store v t ht) :=
  ⟨by simp [h.len], h.inPacket, h.pendingEscape, h.life, h.cfg, h.out, h.delivered, h.faults, h.sinkCalls, fun _ => by
    rw [packet_store, packet_store, h.packet hopen]⟩

/-- Both states are in the same case of Append, since `len` and `in_packet` agree. -/
theorem append (h : s.SameButStale t) (v : Byte) : (append v s).SameButStale (append v t) := by
  obtain ⟨hclosed, heq⟩ | ⟨hopen, hfull, heq⟩ | ⟨hopen, hroom, heq⟩ := append_cases v s <;> rw [heq]
  · rw [append_closed v (h.inPacket.trans hclosed)]
    exact h
  · rw [append_full v (h.inPacket.trans hopen) (by rw [h.len, hfull])]
    exact h.stateReset
  · have hroom' : t.len.val < Config.cap := by rwa [h.len]
    rw [append_room v (h.inPacket.trans hopen) hroom']
    exact h.store v hopen hroom hroom'

/-- What END emits is the packet, and that is not stale. -/
theorem currentEmission_eq (h : s.SameButStale t) (hopen : s.inPacket = true) :
    currentEmission t = currentEmission s := by
  simp [currentEmission, h.cfg, h.len, h.packet hopen]

theorem endStep (h : s.SameButStale t) : (endStep s).SameButStale (endStep t) := by
  cases hp : s.inPacket with
  | false =>
    rw [endStep_of_closed hp, endStep_of_closed (h.inPacket.trans hp)]
    exact h.stateReset
  | true =>
    have hout : t.out ++ [currentEmission t] = s.out ++ [currentEmission s] := by
      rw [h.out, h.currentEmission_eq hp]
    rw [endStep_of_open hp, endStep_of_open (h.inPacket.trans hp)]
    exact ⟨rfl, rfl, rfl, h.life, h.cfg, hout, h.delivered, h.faults, h.sinkCalls, fun hopen => by cases hopen⟩

theorem byteStep (h : s.SameButStale t) (b : Byte) : (byteStep s b).SameButStale (byteStep t b) := by
  unfold Machine.byteStep
  rw [h.pendingEscape]
  cases classify Config.params s.pendingEscape b with
  | escapedData => exact (h.append _).setPendingEscape false
  | start => exact h.openPacket
  | endPacket => exact h.endStep
  | esc => exact h.setPendingEscape true
  | data => exact h.append b

theorem deliverOut (h : s.SameButStale t) : (deliverOut s).SameButStale (deliverOut t) := by
  rw [deliverOut_eq, deliverOut_eq, h.out, h.delivered, h.cfg, h.faults, h.sinkCalls]
  exact ⟨h.len, h.inPacket, h.pendingEscape, h.life, h.cfg, rfl, rfl, rfl, rfl, h.packet⟩

theorem writeLoop (h : s.SameButStale t) (c : List Byte) : (writeLoop c s).SameButStale (writeLoop c t) := by
  induction c generalizing s t with
  | nil => exact h
  | cons b c ih => exact ih (h.byteStep b).deliverOut

theorem observation_eq (h : s.SameButStale t) : s.observation = t.observation := by
  rw [State.observation, State.observation, h.delivered, h.faults]

end State.SameButStale

/-- Settles O38: `life` agrees, so both stop with the same fault or both run the loop, which keeps the relation. -/
theorem staleBytesNeverObserved : Obligations.StaleBytesNeverObserved := by
  intro s t c h
  cases hlife : s.life with
  | unmade => rw [exec_write_unmade hlife, exec_write_unmade (h.life.trans hlife)]
  | dead => rw [exec_write_dead hlife, exec_write_dead (h.life.trans hlife)]
  | live =>
    rw [exec_write_live hlife, exec_write_live (h.life.trans hlife)]
    exact ⟨(h.writeLoop c).observation_eq, h.writeLoop c⟩

/-! ### What each operation does (R151 to R156) -/

/-- Settles O11: START is `openPacket`. -/
theorem startOpensEmptyPacket : Obligations.StartOpensEmptyPacket := fun s =>
  ⟨openPacket s, rfl, rfl, rfl, rfl, fun _ => rfl, rfl⟩

/-- Settles O12: END is `stateReset`, after `emit` if a packet is open. -/
theorem endEmitsThenResets : Obligations.EndEmitsThenResets := by
  refine fun s => ⟨endStep s, rfl, rfl, rfl, rfl, fun hopen => ?_, fun hclosed => ?_, readByte_endStep s, ?_⟩
  · rw [endStep_of_open hopen]; rfl
  · rw [endStep_of_closed hclosed]; rfl
  · cases hp : s.inPacket with
    | true => rw [endStep_of_open hp]; rfl
    | false => rw [endStep_of_closed hp]; rfl

/-- Settles O13: the definition of ESC. -/
theorem escSetsPendingOnly : Obligations.EscSetsPendingOnly := fun _ => rfl

theorem exec_data (b : Byte) (s : State) : exec (.data b) s = .next (append b s) := rfl

theorem exec_escapedData (b : Byte) (s : State) :
    exec (.escapedData b) s = .next (setPendingEscape false (append (b &&& 0xDF) s)) := rfl

/-- Settles O14: the three cases of Append. That the byte is no control value is not needed. -/
theorem dataAppendsItsByte : Obligations.DataAppendsItsByte := by
  intro b s _
  refine ⟨fun hclosed => ?_, fun hopen hfull => ?_, fun hopen hroom => ?_⟩ <;> rw [exec_data]
  · rw [append_closed b hclosed]
  · rw [append_full b hopen hfull]
    exact ⟨_, rfl, rfl, rfl, rfl, fun _ => rfl, rfl⟩
  · rw [append_room b hopen hroom]
    exact ⟨_, rfl, rfl, by rw [readByte_store, if_pos rfl],
      fun a ha => by rw [readByte_store, if_neg ha.symm], rfl⟩

/-- Settles O15: the three cases of Append on the unescaped byte, and `pending_escape` cleared after each. -/
theorem escapedDataAppendsUnescapedByte : Obligations.EscapedDataAppendsUnescapedByte := by
  intro b s
  refine ⟨fun hclosed => ?_, fun hopen hfull => ?_, fun hopen hroom => ?_⟩ <;> rw [exec_escapedData]
  · rw [append_closed _ hclosed]; rfl
  · rw [append_full _ hopen hfull]
    exact ⟨_, rfl, rfl, rfl, rfl, fun _ => rfl, rfl⟩
  · have hread : ∀ a, readByte (setPendingEscape false (store (b &&& 0xDF) s hroom)) a =
        if s.len.val = a then b &&& 0xDF else readByte s a := readByte_store (b &&& 0xDF) s hroom
    rw [append_room _ hopen hroom]
    exact ⟨_, rfl, rfl, rfl, by rw [hread, if_pos rfl], fun a ha => by rw [hread, if_neg ha.symm], rfl⟩

/-! ### What the byte operations emit, read and leave alone (R150, R157, R166) -/

theorem made_eq_nil_or_singleton (s : State) (b : Byte) : made s b = [] ∨ ∃ e, made s b = [e] := by
  unfold made
  split
  next => exact .inr ⟨_, rfl⟩
  next => exact .inl rfl

/-- Settles O16: one byte step, its frame, and its zero or one emissions. -/
theorem everyByteCompletes : Obligations.EveryByteCompletes := by
  intro s b
  refine ⟨byteStep s b, exec_decodeByte s b, ?_, byteStep_frame s b⟩
  rw [byteStep_out]
  exact (made_eq_nil_or_singleton s b).imp (fun h => by rw [h, List.append_nil]) fun ⟨e, h⟩ => ⟨e, by rw [h]⟩

/-- The same state with another `life` and another sink. -/
def State.withLifeSink (s : State) (l : Life) (k : Sink) : State :=
  { s with life := l, cfg := { s.cfg with sink := k } }

theorem append_withLifeSink (v : Byte) (s : State) (l : Life) (k : Sink) :
    append v (s.withLifeSink l k) = (append v s).withLifeSink l k := by
  obtain ⟨hclosed, heq⟩ | ⟨hopen, hfull, heq⟩ | ⟨hopen, hroom, heq⟩ := append_cases v s <;> rw [heq]
  · exact append_closed v (s := s.withLifeSink l k) hclosed
  · exact append_full v (s := s.withLifeSink l k) hopen hfull
  · exact append_room v (s := s.withLifeSink l k) hopen hroom

theorem endStep_withLifeSink (s : State) (l : Life) (k : Sink) :
    endStep (s.withLifeSink l k) = (endStep s).withLifeSink l k := by
  cases hp : s.inPacket with
  | false => rw [endStep_of_closed hp]; exact endStep_of_closed (s := s.withLifeSink l k) hp
  | true => rw [endStep_of_open hp]; exact endStep_of_open (s := s.withLifeSink l k) hp

/-- Settles O17: each operation commutes with the change of `life` and sink. -/
theorem byteOperationsIgnoreLifeAndSink : Obligations.ByteOperationsIgnoreLifeAndSink := by
  intro i s t l k hi h
  cases i with
  | escapedData b =>
    cases h
    exact congrArg (fun u => Host.Outcome.next (setPendingEscape false u))
      (append_withLifeSink (unescape Config.params b) s l k)
  | start | esc => cases h; rfl
  | endPacket => cases h; exact congrArg Host.Outcome.next (endStep_withLifeSink s l k)
  | data b => cases h; exact congrArg Host.Outcome.next (append_withLifeSink b s l k)
  | create x y | destroy | write c => cases hi

theorem endStep_out_ne_iff (s : State) : (endStep s).out ≠ s.out ↔ s.inPacket = true := by
  cases hp : s.inPacket with
  | false => simp [endStep_of_closed hp]
  | true => simp [endStep_of_open hp]

/-- Settles O18: END is the one operation that writes `out`, and it does so exactly if a packet is open. -/
theorem onlyEndEmits : Obligations.OnlyEndEmits := by
  intro i s t hi h
  cases i with
  | endPacket => cases h; simpa using endStep_out_ne_iff s
  | escapedData b => cases h; simp [escapedDataStep]
  | start => cases h; simp [startStep]
  | esc => cases h; simp [escStep]
  | data b => cases h; simp [dataStep]
  | create x y | destroy | write c => cases hi

/-- Settles O22: START leaves no bytes, ESC the bytes before, an appending operation its value at their end; END leaves no packet
open. -/
theorem openPacketHoldsDecodedValues : Obligations.OpenPacketHoldsDecodedValues := by
  intro s t b h hopen
  obtain rfl : byteStep s b = t := by rw [exec_decodeByte] at h; cases h; rfl
  unfold byteStep at hopen ⊢
  cases hk : classify Config.params s.pendingEscape b <;> simp only [hk] at hopen ⊢
  case escapedData => exact packet_append_of_open (unescape Config.params b) hopen
  case start => exact packet_of_len_zero (openPacket s) rfl
  case endPacket => cases hopen
  case esc => exact (List.append_nil s.packet).symm
  case data => exact packet_append_of_open b hopen

/-! ### The transition table (R159) -/

theorem setPendingEscape_false_of {s : State} (h : s.pendingEscape = false) : setPendingEscape false s = s := by
  rw [setPendingEscape, ← h]

theorem isControl_eq_false {p : Params} {b : Byte} (hstart : b ≠ p.startByte) (hend : b ≠ p.endByte)
    (hesc : b ≠ p.escapeByte) : p.isControl b = false := by
  simp [Params.isControl, hstart, hend, hesc]

/-- The four names (R36), each with its flags. -/
theorem State.framerState_cases (s : State) :
    (s.framerState = .idle ∧ s.inPacket = false ∧ s.pendingEscape = false) ∨
    (s.framerState = .idleEscaped ∧ s.inPacket = false ∧ s.pendingEscape = true) ∨
    (s.framerState = .accumulating ∧ s.inPacket = true ∧ s.pendingEscape = false) ∨
    (s.framerState = .escaped ∧ s.inPacket = true ∧ s.pendingEscape = true) := by
  unfold State.framerState
  cases s.inPacket <;> cases s.pendingEscape <;> simp

/-- The entry of the table for an appended value in an open packet: a store while there is room, else IDLE by overflow. -/
theorem append_row (v : Byte) {s : State} (hopen : s.inPacket = true) :
    let t := setPendingEscape false (append v s)
    if s.len.val < Config.cap then
      t.framerState = .accumulating ∧ t.len.val = s.len.val + 1 ∧ readByte t s.len.val = v ∧ t.out = s.out
    else t.framerState = .idle ∧ t.len.val = 0 ∧ t.out = s.out := by
  dsimp only
  split
  next hroom =>
    rw [append_room v hopen hroom]
    have hread : readByte (store v s hroom) s.len.val = v := by rw [readByte_store, if_pos rfl]
    exact ⟨by simp [State.framerState, hopen], rfl, hread, rfl⟩
  next hfull =>
    rw [append_no_room v hopen hfull]
    exact ⟨rfl, rfl, rfl⟩

/-- Settles O23: the state's name fixes both flags; each byte then selects its operation, and an appended byte is `append_row`. -/
theorem transitionTable : Obligations.TransitionTable := by
  intro s b hinv
  refine ⟨byteStep s b, exec_decodeByte s b, ?_⟩
  have hstart (h : s.pendingEscape = false) : byteStep s 0x02 = openPacket s := byteStep_startByte h
  have hend (h : s.pendingEscape = false) : byteStep s 0x03 = endStep s := byteStep_endByte_eq_endStep h
  have hesc (h : s.pendingEscape = false) : byteStep s 0x10 = setPendingEscape true s := byteStep_escapeByte h
  have hdata (h : s.pendingEscape = false) (h02 : b ≠ 0x02) (h03 : b ≠ 0x03) (h10 : b ≠ 0x10) :
      byteStep s b = append b s :=
    byteStep_of_not_control h (isControl_eq_false h02 h03 h10)
  obtain ⟨hname, hin, hpe⟩ | ⟨hname, hin, hpe⟩ | ⟨hname, hin, hpe⟩ | ⟨hname, hin, hpe⟩ := s.framerState_cases <;>
    simp only [hname]
  case inl =>
    by_cases h02 : b = 0x02
    · rw [if_pos h02, h02, hstart hpe]; exact ⟨rfl, rfl, rfl⟩
    by_cases h03 : b = 0x03
    · rw [if_neg h02, if_pos h03, h03, hend hpe, endStep_of_closed hin]; exact ⟨rfl, rfl, rfl⟩
    by_cases h10 : b = 0x10
    · rw [if_neg h02, if_neg h03, if_pos h10, h10, hesc hpe]
      exact ⟨by simp [State.framerState, hin], hinv hin, rfl⟩
    · rw [if_neg h02, if_neg h03, if_neg h10, hdata hpe h02 h03 h10, append_closed b hin]
  case inr.inl =>
    rw [byteStep_pending hpe, append_closed _ hin]
    exact ⟨by simp [State.framerState, hin], hinv hin, rfl, rfl⟩
  case inr.inr.inl =>
    by_cases h02 : b = 0x02
    · rw [if_pos h02, h02, hstart hpe]; exact ⟨rfl, rfl, rfl⟩
    by_cases h03 : b = 0x03
    · rw [if_neg h02, if_pos h03, h03, hend hpe, endStep_of_open hin]; exact ⟨rfl, rfl, rfl⟩
    by_cases h10 : b = 0x10
    · rw [if_neg h02, if_neg h03, if_pos h10, h10, hesc hpe]
      exact ⟨by simp [State.framerState, hin], rfl, rfl⟩
    · rw [if_neg h02, if_neg h03, if_neg h10, hdata hpe h02 h03 h10,
        ← setPendingEscape_false_of (append_pendingEscape_of_false b hpe)]
      exact append_row b hin
  case inr.inr.inr =>
    rw [byteStep_pending hpe]
    exact append_row (b &&& 0xDF) hin

/-! ### Short chunks (R164, R165) -/

/-- Settles O36: `02 03` is the frame of the empty payload. -/
theorem emptyPacketIsEmitted : Obligations.EmptyPacketIsEmitted := fun s hready hidle =>
  frameRoundTrip s [] hready hidle (Nat.zero_le _)

/-- END leads to IDLE whether or not a packet is open. -/
theorem endStep_isIdle (s : State) : (endStep s).IsIdle := ⟨rfl, rfl⟩

/-- With no escape pending after `before`, a WRITE that ends in END ends in IDLE. -/
theorem exec_write_endByte_isIdle {s : State} {before : List Byte} (hready : s.Ready)
    (hpe : (feed s before).pendingEscape = false) :
    ∃ t, exec (.write (before ++ [Config.params.endByte])) s = .next t ∧ t.IsIdle := by
  refine ⟨_, exec_write_ready hready _, ?_⟩
  show (feed s (before ++ [Config.params.endByte])).IsIdle
  rw [feed_append, feed_cons, feed_nil, byteStep_endByte_eq_endStep hpe]
  exact endStep_isIdle _

/-- Settles O37: END ends in IDLE with no escape pending, and any byte clears a pending escape; START opens a packet. -/
theorem idleIsAlwaysReachable : Obligations.IdleIsAlwaysReachable := by
  refine fun s hready => ⟨exec_write_endByte_isIdle (before := []) hready, fun hpe x => ?_, fun hpe => ?_⟩
  · have hclear : (feed s [x]).pendingEscape = false := by rw [feed_cons, feed_nil, byteStep_pending hpe]; rfl
    exact exec_write_endByte_isIdle hready hclear
  · have hopen : feed s [0x02] = openPacket s := byteStep_startByte hpe
    refine ⟨_, exec_write_ready hready _, ?_⟩
    rw [afterChunk, hopen]
    exact ⟨rfl, rfl⟩

/-! ### A packet that is too long (R162) -/

/-- Outside a packet the encoding of a payload is dropped. -/
theorem feed_enc_of_closed {s : State} (hin : s.inPacket = false) (hpe : s.pendingEscape = false) (payload : List Byte) :
    feed s (enc Config.params payload) = s := by
  induction payload with
  | nil => rfl
  | cons v vs ih => rw [enc, feed_append, feed_escByte hpe, append_closed v hin, ih]

/-- An open packet that has no room for a payload overflows within it, and the rest of the encoding is dropped. -/
theorem feed_enc_of_overflow {s : State} {payload : List Byte} (hopen : s.inPacket = true) (hpe : s.pendingEscape = false)
    (hlong : Config.cap < s.len.val + payload.length) :
    (feed s (enc Config.params payload)).IsIdle ∧ (feed s (enc Config.params payload)).out = s.out := by
  induction payload generalizing s with
  | nil => exact absurd s.len_le_cap (not_le.mpr hlong)
  | cons v vs ih =>
    rw [enc, feed_append, feed_escByte hpe]
    by_cases hroom : s.len.val < Config.cap
    · have hlong' : Config.cap < s.len.val + 1 + vs.length := by rw [List.length_cons] at hlong; omega
      rw [append_room v hopen hroom]
      exact ih (s := store v s hroom) hopen hpe hlong'
    · rw [append_no_room v hopen hroom, feed_enc_of_closed rfl rfl]
      exact ⟨stateReset_isIdle s, rfl⟩

/-- From IDLE, the frame of a payload over CAP emits nothing and leads back to IDLE. -/
theorem feed_frame_of_too_long {s : State} {payload : List Byte} (hidle : s.IsIdle) (hlong : Config.cap < payload.length) :
    (feed s (frame Config.params payload)).IsIdle ∧ (feed s (frame Config.params payload)).out = s.out := by
  obtain ⟨-, hpe, -⟩ := s.isIdle_iff.mp hidle
  obtain ⟨hidle', hout⟩ := feed_enc_of_overflow (s := openPacket s) (payload := payload) rfl rfl (by simpa using hlong)
  obtain ⟨hclosed, hpe', -⟩ := (State.isIdle_iff _).mp hidle'
  rw [feed_frame_eq hpe, byteStep_endByte_eq_endStep hpe']
  exact ⟨endStep_isIdle _, by rw [endStep_of_closed hclosed]; exact hout⟩

theorem afterChunk_ready {s : State} (h : s.Ready) (c : List Byte) : (afterChunk s c).Ready := by
  obtain ⟨hlife, -⟩ := feed_frame s c
  exact ⟨hlife.trans h.live, rfl⟩

/-- Settles O34: the long frame leaves the block ready, in IDLE and with nothing delivered, and the next frame makes its
round trip from there. -/
theorem tooLongPacketIsDropped : Obligations.TooLongPacketIsDropped := by
  intro s long payload hready hidle hlong hfit
  obtain ⟨hidle', hout⟩ := feed_frame_of_too_long hidle hlong
  have hnone : (afterChunk s (frame Config.params long)).delivered = s.delivered := by
    simpa using afterChunk_delivered (payloads := []) (by simpa using hout)
  have hcfg : (afterChunk s (frame Config.params long)).cfg = s.cfg := feed_cfg s _
  obtain ⟨u, hwrite, hdelivered, hidleU⟩ := frameRoundTrip _ payload (afterChunk_ready hready _) hidle' hfit
  rw [hnone, State.deliveryOf_congr hcfg] at hdelivered
  exact ⟨_, exec_write_ready hready _, hnone, hidle', u, hwrite, hdelivered, hidleU⟩

/-! ### Streams as tokens (R163, R167)

With no escape pending, a stream is the fold of one step for each of its tokens. What the token form says of a stream is then a fact
about single tokens. -/

/-- What one token does: D appends its value, S opens a packet, E is END, and P leaves an escape pending. -/
def tokenStep (s : State) : Token → State
  | .decoded v => setPendingEscape false (append v s)
  | .opening => openPacket s
  | .closing => endStep s
  | .dangling => setPendingEscape true s

@[simp] theorem tokenStep_cfg (s : State) (k : Token) : (tokenStep s k).cfg = s.cfg := by
  cases k <;> simp [tokenStep]

theorem tokenStep_pendingEscape_iff (s : State) (k : Token) : (tokenStep s k).pendingEscape = true ↔ k = .dangling := by
  cases k <;> simp [tokenStep, endStep]

theorem tokenStep_pendingEscape_of_ne (s : State) {k : Token} (h : k ≠ .dangling) :
    (tokenStep s k).pendingEscape = false := by
  simpa using mt (tokenStep_pendingEscape_iff s k).mp h

theorem plainToken_ne_dangling (b : Byte) : plainToken b ≠ .dangling := by
  unfold plainToken
  split_ifs <;> simp

/-- A byte that is not ESC is its own token. -/
theorem byteStep_eq_tokenStep_plainToken {s : State} (hpe : s.pendingEscape = false) {b : Byte}
    (hb : b ≠ Config.params.escapeByte) : byteStep s b = tokenStep s (plainToken b) := by
  by_cases hstart : b = Config.params.startByte
  · rw [hstart, byteStep_startByte hpe]; rfl
  by_cases hend : b = Config.params.endByte
  · rw [hend, byteStep_endByte_eq_endStep hpe]; rfl
  · rw [byteStep_of_not_control hpe (isControl_eq_false hstart hend hb), plainToken, if_neg hstart, if_neg hend, tokenStep,
      setPendingEscape_false_of (append_pendingEscape_of_false b hpe)]

/-- The fold of Step over a stream is the fold over its tokens; ESC and the byte after it are one token (R97). -/
theorem feed_eq_foldl_tokenStep {s : State} (hpe : s.pendingEscape = false) (c : List Byte) :
    feed s c = (tokenize c).foldl tokenStep s := by
  induction c using tokenize.induct generalizing s with
  | case1 => rfl
  | case2 => rw [tokenize, if_pos rfl]; exact byteStep_escapeByte hpe
  | case3 b hb => rw [tokenize, if_neg hb]; exact byteStep_eq_tokenStep_plainToken hpe hb
  | case4 x rest ih =>
    have hpair : feed s [Config.params.escapeByte, x] = tokenStep s (.decoded (unescape Config.params x)) := by
      rw [feed_escapePair hpe, tokenStep, setPendingEscape_false_of (append_pendingEscape_of_false _ hpe)]
    rw [tokenize, if_pos rfl, List.foldl_cons, ← ih rfl, ← hpair, ← feed_append]
    rfl
  | case5 b x rest hb ih =>
    have hclear := tokenStep_pendingEscape_of_ne s (plainToken_ne_dangling b)
    rw [tokenize, if_neg hb, List.foldl_cons, ← ih hclear, ← byteStep_eq_tokenStep_plainToken hpe hb]
    rfl

/-- Outside a packet, a token other than S changes nothing that is seen of the packet or the output. -/
theorem foldl_tokenStep_of_no_opening {s : State} {ts : List Token} (hin : s.inPacket = false) (hlen : s.len.val = 0)
    (h : Token.opening ∉ ts) :
    (ts.foldl tokenStep s).inPacket = false ∧ (ts.foldl tokenStep s).len.val = 0 ∧
      (ts.foldl tokenStep s).buf = s.buf ∧ (ts.foldl tokenStep s).out = s.out := by
  induction ts generalizing s with
  | nil => exact ⟨hin, hlen, rfl, rfl⟩
  | cons k ts ih =>
    obtain ⟨hk, hts⟩ := not_or.mp (mt List.mem_cons.mpr h)
    rw [List.foldl_cons]
    cases k with
    | decoded v => rw [tokenStep, append_closed v hin]; exact ih (s := setPendingEscape false s) hin hlen hts
    | opening => exact absurd rfl hk
    | closing => rw [tokenStep, endStep_of_closed hin]; exact ih (s := stateReset s) rfl rfl hts
    | dangling => exact ih (s := setPendingEscape true s) hin hlen hts

/-- Settles O35: no token of the stream is S, so none opens a packet, and there is nothing to deliver. -/
theorem dropWindowEmitsNothing : Obligations.DropWindowEmitsNothing := by
  intro s c hready hidle hno
  obtain ⟨hin, hpe, hlen⟩ := s.isIdle_iff.mp hidle
  have hdrop := foldl_tokenStep_of_no_opening hin hlen hno
  rw [← feed_eq_foldl_tokenStep hpe] at hdrop
  obtain ⟨hin', hlen', hbuf, hout⟩ := hdrop
  obtain ⟨-, -, hdelivered, -⟩ := feed_frame s c
  have hquiet : afterChunk s c = feed s c := afterChunk_eq_feed hready.outEmpty (hout.trans hready.outEmpty)
  exact ⟨feed s c, hquiet ▸ exec_write_ready hready c, hdelivered, hin', hlen', hbuf⟩

/-- The packet of a state as the token form gives it: the bytes of the open packet, or none and `len` 0. -/
def State.HoldsPacket (s : State) : Option (List Byte) → Prop
  | some d => s.inPacket = true ∧ s.packet = d
  | none => s.inPacket = false ∧ s.len.val = 0

theorem openAfter_eq_filter (seen : List Token) :
    openAfter seen = (sinceOpening seen).filter (·.length ≤ Config.cap) := by
  unfold openAfter
  cases sinceOpening seen with
  | none => rfl
  | some d => simp [Option.filter]

theorem openAfter_decoded_of_none {seen : List Token} (h : openAfter seen = none) (v : Byte) :
    openAfter (.decoded v :: seen) = none := by
  rw [openAfter_eq_filter] at h ⊢
  rw [sinceOpening]
  cases hd : sinceOpening seen with
  | none => rfl
  | some d =>
    have hlong : Config.cap < d.length := by simpa [hd] using h
    simp [Option.filter]
    omega

theorem openAfter_decoded_of_some {seen : List Token} {d : List Byte} (h : openAfter seen = some d) (v : Byte) :
    openAfter (.decoded v :: seen) = if d.length < Config.cap then some (d ++ [v]) else none := by
  rw [openAfter_eq_filter] at h ⊢
  rw [sinceOpening, (Option.filter_eq_some_iff.mp h).1]
  simp [Option.filter]

/-- A D token in the state and in the token form: appended while there is room, dropped by both after. -/
theorem append_holdsPacket {s : State} {seen : List Token} (h : s.HoldsPacket (openAfter seen)) (v : Byte) :
    (append v s).HoldsPacket (openAfter (.decoded v :: seen)) := by
  cases hseen : openAfter seen with
  | none =>
    rw [hseen] at h
    obtain ⟨hin, hlen⟩ := h
    rw [openAfter_decoded_of_none hseen, append_closed v hin]
    exact ⟨hin, hlen⟩
  | some d =>
    rw [hseen] at h
    obtain ⟨hopen, rfl⟩ := h
    rw [openAfter_decoded_of_some hseen, packet_length]
    split
    next hroom =>
      rw [append_room v hopen hroom]
      exact ⟨hopen, packet_store v s hroom⟩
    next hfull =>
      rw [append_no_room v hopen hfull]
      exact ⟨rfl, rfl⟩

theorem tokenStep_holdsPacket {s : State} {seen : List Token} (h : s.HoldsPacket (openAfter seen)) (k : Token) :
    (tokenStep s k).HoldsPacket (openAfter (k :: seen)) := by
  cases k with
  | decoded v => exact append_holdsPacket h v
  | opening => exact ⟨rfl, packet_of_len_zero (openPacket s) rfl⟩
  | closing => exact ⟨rfl, rfl⟩
  | dangling => exact h

theorem foldl_tokenStep_holdsPacket {s : State} {seen : List Token} (h : s.HoldsPacket (openAfter seen)) (ts : List Token) :
    (ts.foldl tokenStep s).HoldsPacket (openAfter (ts.reverse ++ seen)) := by
  induction ts generalizing s seen with
  | nil => exact h
  | cons k ts ih => simpa using ih (tokenStep_holdsPacket h k)

/-- What a list of tokens emits is what its first token emits, and then the rest. -/
theorem emittedFrom_cons (seen : List Token) (k : Token) (ts : List Token) :
    emittedFrom seen (k :: ts) = emittedFrom seen [k] ++ emittedFrom (k :: seen) ts := by
  cases k <;> simp [emittedFrom]

/-- The packet END emits is the one the token form has open. -/
theorem endStep_out_of_holdsPacket {s : State} {o : Option (List Byte)} (h : s.HoldsPacket o) :
    (endStep s).out = s.out ++ o.toList.map fun p => (s.deliveryOf p).emission := by
  cases o with
  | none =>
    obtain ⟨hclosed, -⟩ := h
    simp [endStep_of_closed hclosed]
  | some d =>
    obtain ⟨hopen, rfl⟩ := h
    simp [endStep_of_open hopen, currentEmission_eq]

theorem tokenStep_out {s : State} {seen : List Token} (h : s.HoldsPacket (openAfter seen)) (k : Token) :
    (tokenStep s k).out = s.out ++ (emittedFrom seen [k]).map fun p => (s.deliveryOf p).emission := by
  cases k with
  | closing => simpa [tokenStep, emittedFrom] using endStep_out_of_holdsPacket h
  | decoded v | opening | dangling => simp [tokenStep, emittedFrom]

theorem foldl_tokenStep_out {s : State} {seen : List Token} (h : s.HoldsPacket (openAfter seen)) (ts : List Token) :
    (ts.foldl tokenStep s).out = s.out ++ (emittedFrom seen ts).map fun p => (s.deliveryOf p).emission := by
  induction ts generalizing s seen with
  | nil => simp [emittedFrom]
  | cons k ts ih =>
    rw [List.foldl_cons, ih (tokenStep_holdsPacket h k), tokenStep_out h, emittedFrom_cons seen k ts, List.map_append,
      List.append_assoc]
    simp only [State.deliveryOf_congr (tokenStep_cfg s k)]

theorem foldl_tokenStep_pendingEscape_iff {s : State} (hpe : s.pendingEscape = false) (ts : List Token) :
    (ts.foldl tokenStep s).pendingEscape = true ↔ ts.getLast? = some .dangling := by
  obtain rfl | ⟨front, k, rfl⟩ := List.eq_nil_or_concat' ts
  · simp [hpe]
  · simp [tokenStep_pendingEscape_iff]

/-- Settles O31: IDLE holds the packet of no tokens; by induction over the tokens the fold holds the packet and has emitted the payloads
that the token form gives. -/
theorem declarativeFormAgrees : Obligations.DeclarativeFormAgrees := by
  intro s c hready hidle
  obtain ⟨hin, hpe, hlen⟩ := s.isIdle_iff.mp hidle
  have hstart : s.HoldsPacket (openAfter []) := ⟨hin, hlen⟩
  have hpacket := foldl_tokenStep_holdsPacket hstart (tokenize c)
  have hout := foldl_tokenStep_out hstart (tokenize c)
  have hpending := foldl_tokenStep_pendingEscape_iff hpe (tokenize c)
  rw [← feed_eq_foldl_tokenStep hpe] at hpacket hout hpending
  refine ⟨afterChunk s c, exec_write_ready hready c, afterChunk_delivered hout, ?_, hpending⟩
  rw [List.append_nil] at hpacket
  cases hopen : openAfter (tokenize c).reverse with
  | none => rw [hopen] at hpacket; exact hpacket
  | some d =>
    rw [hopen] at hpacket
    obtain ⟨hin', rfl⟩ := hpacket
    exact ⟨hin', (packet_length (feed s c)).symm, rfl⟩

end Sys2Proof.Machine

/-! ## Exceptions: the faults of a step, the fault record, and silent recovery (60_exceptions.md) -/

namespace Sys2Proof.Machine

/-! ### Where a step stops (R203) -/

theorem Request.asOp_eq_write_iff (q : Request) :
    (∃ c, q.asOp = .write c) ↔ (∃ b, q = .byte b) ∨ ∃ c, q = .op (.write c) := by
  cases q <;> simp [Request.asOp]

theorem Request.asOp_eq_destroy_iff (q : Request) : q.asOp = .destroy ↔ q = .op .destroy := by
  cases q <;> simp [Request.asOp]

theorem HostOp.ne_create_iff (o : HostOp) : (∀ k x, o ≠ .create k x) ↔ (∃ c, o = .write c) ∨ o = .destroy := by
  cases o <;> simp

/-- `step_faults`, and that each of its cases does stop the step. -/
theorem step_eq_fault_iff (s : State) (r : Fault) :
    step s = .fault r ↔ ∃ q rest, s.inputs = q :: rest ∧
      ((r = .notCreated ∧ s.life = .unmade ∧ ∀ k x, q.asOp ≠ .create k x) ∨
       (r = .useAfterDestroy ∧ s.life = .dead ∧ ∃ c, q.asOp = .write c) ∨
       (r = .doubleDestroy ∧ s.life = .dead ∧ q.asOp = .destroy)) := by
  refine ⟨step_faults, ?_⟩
  rintro ⟨q, rest, hi, h⟩
  rw [step_request hi, perform_eq_exec]
  obtain ⟨rfl, hunmade, hq⟩ | ⟨rfl, hdead, c, hq⟩ | ⟨rfl, hdead, hq⟩ := h
  · obtain ⟨c, hq⟩ | hq := (HostOp.ne_create_iff q.asOp).mp hq <;> rw [hq]
    · exact exec_write_unmade (s := { s with inputs := rest }) hunmade c
    · exact exec_destroy_unmade (s := { s with inputs := rest }) hunmade
  · rw [hq]
    exact exec_write_dead (s := { s with inputs := rest }) hdead c
  · rw [hq]
    exact exec_destroy_dead (s := { s with inputs := rest }) hdead

theorem exec_hostOp_ne_refused (o : HostOp) (s : State) (r : Refusal) : exec o.toInstr s ≠ .refused r := by
  cases o with
  | create k x => exact nofun
  | destroy =>
    cases hlife : s.life <;> simp [HostOp.toInstr, exec_destroy_unmade, exec_destroy_live, exec_destroy_dead, hlife]
  | write c =>
    cases hlife : s.life <;> simp [HostOp.toInstr, exec_write_unmade, exec_write_live, exec_write_dead, hlife]

theorem step_ne_refused (s : State) (r : Refusal) : step s ≠ .refused r := by
  cases hi : s.inputs with
  | nil => simp [step_idle hi]
  | cons q rest =>
    rw [step_request hi, perform_eq_exec]
    exact exec_hostOp_ne_refused q.asOp _ r

/-- Settles O45: `step_eq_fault_iff` for each fault, with the host operation of the request spelled out as the requests that stand
for it. -/
theorem stepFaultsExactlyAsListed : Obligations.StepFaultsExactlyAsListed := by
  intro s
  refine ⟨?_, ?_, ?_, by simp [step_eq_fault_iff], step_ne_refused s⟩ <;> rw [step_eq_fault_iff] <;>
    cases s.inputs
  case refine_1.nil | refine_2.nil | refine_3.nil => simp
  case refine_1.cons q rest =>
    simp [HostOp.ne_create_iff, Request.asOp_eq_write_iff, Request.asOp_eq_destroy_iff, exists_or, or_assoc]
  case refine_2.cons q rest => simp [Request.asOp_eq_write_iff, exists_or]
  case refine_3.cons q rest => simp [Request.asOp_eq_destroy_iff, and_comm]

/-! ### The fault record (R203, R212) -/

/-- Of all a step can do, the deliveries of a chunk alone write the record. -/
theorem step_faults_eq_append {s t : State} (hout : s.out = []) (h : step s = .next t) :
    t.faults = s.faults ++
      List.replicate (callsDuring s.sinkCalls (t.delivered.length - s.delivered.length)) .reentrantCall := by
  obtain ⟨-, rfl⟩ | ⟨q, rest, -, ⟨k, x, -, rfl⟩ | ⟨-, -, rfl⟩ | ⟨c, -, -, rfl⟩⟩ := step_cases h
  · simp
  · simp
  · simp
  · rw [writeLoop_eq c { s with inputs := rest } hout,
      afterChunk_delivered_length_sub { s with inputs := rest } c]
    rfl

/-- Settles O60: the record after the step is `step_faults_eq_append`, and a quiet sink makes no call. -/
theorem faultRecordOnlyGrows : Obligations.FaultRecordOnlyGrows := by
  intro s t hout h
  have hfaults := step_faults_eq_append hout h
  exact ⟨hfaults, fun hquiet => by simpa [callsDuring_quiet hquiet] using hfaults⟩

/-! ### Recovery (R201, R206) -/

theorem ByteClass.appends_iff (k : ByteClass) : ByteClass.appends k = true ↔ k = .escapedData ∨ k = .data := by
  cases k <;> simp [ByteClass.appends]

theorem State.full_iff (s : State) : s.full = true ↔ s.len.val = Config.cap := beq_iff_eq

/-- The column "detected when" of R201. -/
theorem Recovery.detected_cases {r : Recovery} {s : State} {b : Byte} {last : Bool} (h : r.detected s b last = true) :
    (r = .strayEnd ∧ classify Config.params s.pendingEscape b = .endPacket ∧ s.inPacket = false) ∨
    (r = .overflow ∧ ByteClass.appends (classify Config.params s.pendingEscape b) = true ∧ s.inPacket = true ∧
      s.len.val = Config.cap) ∨
    (r = .restart ∧ classify Config.params s.pendingEscape b = .start ∧ s.inPacket = true) ∨
    (r = .dropOutside ∧ ByteClass.appends (classify Config.params s.pendingEscape b) = true ∧ s.inPacket = false) ∨
    (r = .deferredEscape ∧ classify Config.params s.pendingEscape b = .esc ∧ last = true) := by
  cases r <;> simpa [Recovery.detected, State.full_iff, and_assoc] using h

/-- The one condition that the class of a byte and `in_packet` leave possible (R206). -/
def ByteClass.possibleRecovery (k : ByteClass) (inPacket : Bool) : Recovery :=
  match k with
  | .start => .restart
  | .endPacket => .strayEnd
  | .esc => .deferredEscape
  | .escapedData | .data => if inPacket then .overflow else .dropOutside

theorem ByteClass.possibleRecovery_of_appends {k : ByteClass} (h : ByteClass.appends k = true) (inPacket : Bool) :
    ByteClass.possibleRecovery k inPacket = if inPacket then .overflow else .dropOutside := by
  obtain rfl | rfl := (ByteClass.appends_iff k).mp h <;> rfl

theorem Recovery.eq_possible_of_detected {r : Recovery} {s : State} {b : Byte} {last : Bool}
    (h : r.detected s b last = true) :
    r = ByteClass.possibleRecovery (classify Config.params s.pendingEscape b) s.inPacket := by
  obtain ⟨rfl, hk, -⟩ | ⟨rfl, hk, hin, -⟩ | ⟨rfl, hk, -⟩ | ⟨rfl, hk, hin⟩ | ⟨rfl, hk, -⟩ := detected_cases h
  · rw [hk]; rfl
  · rw [ByteClass.possibleRecovery_of_appends hk, hin]; rfl
  · rw [hk]; rfl
  · rw [ByteClass.possibleRecovery_of_appends hk, hin]; rfl
  · rw [hk]; rfl

/-- Settles O55: both are the one condition that the byte's class and `in_packet` leave possible. -/
theorem atMostOneRecovery : Obligations.AtMostOneRecovery := fun _ _ _ _ _ h h' =>
  (Recovery.eq_possible_of_detected h).trans (Recovery.eq_possible_of_detected h').symm

/-- A byte of an appending class appends some value and leaves no escape pending (R151, R155). -/
theorem byteStep_of_appends {s : State} {b : Byte}
    (h : ByteClass.appends (classify Config.params s.pendingEscape b) = true) :
    ∃ v, byteStep s b = setPendingEscape false (append v s) := by
  obtain hk | hk := (ByteClass.appends_iff _).mp h
  · exact ⟨unescape Config.params b, by rw [byteStep, hk]; rfl⟩
  · have hpe : s.pendingEscape = false := pendingEscape_eq_false_of_classify hk (by decide)
    refine ⟨b, ?_⟩
    rw [setPendingEscape_false_of (append_pendingEscape_of_false b hpe), byteStep, hk]
    rfl

/-- Settles O56: each condition fixes the branch of its operation, and that branch neither emits nor writes the buffer. INV2 is not
needed. -/
theorem recoveryEffects : Obligations.RecoveryEffects := by
  intro s b last r _ h
  refine ⟨byteStep s b, exec_decodeByte s b, ?_⟩
  obtain ⟨rfl, hk, hin⟩ | ⟨rfl, hk, hin, hfull⟩ | ⟨rfl, hk, -⟩ | ⟨rfl, hk, hin⟩ | ⟨rfl, hk, -⟩ := Recovery.detected_cases h
  · have hstep : byteStep s b = stateReset s := by rw [byteStep, hk]; exact endStep_of_closed hin
    rw [hstep]
    exact ⟨rfl, rfl, rfl, rfl⟩
  · obtain ⟨v, hstep⟩ := byteStep_of_appends hk
    rw [hstep, append_full v hin hfull]
    exact ⟨rfl, rfl, rfl, rfl⟩
  · have hstep : byteStep s b = openPacket s := by rw [byteStep, hk]; rfl
    rw [hstep]
    exact ⟨rfl, rfl, rfl, rfl⟩
  · obtain ⟨v, hstep⟩ := byteStep_of_appends hk
    rw [hstep, append_closed v hin]
    exact ⟨rfl, rfl, rfl⟩
  · have hstep : byteStep s b = setPendingEscape true s := by rw [byteStep, hk]; rfl
    rw [hstep]
    exact ⟨rfl, rfl, rfl⟩

end Sys2Proof.Machine

/-! ## Reset and power-up (70_reset_and_hazards.md) -/

namespace Sys2Proof.Machine

/-! ### The state after reset (R46, R230) -/

theorem reset_isIdle : State.reset.IsIdle := ⟨rfl, rfl⟩

/-- Settles O6: the reset buffer lists no cell, so it is canonical and every index reads as the free draw. -/
theorem resetIsIdleAndLive : Obligations.ResetIsIdleAndLive :=
  ⟨reset_isIdle, rfl, rfl, rfl, rfl, rfl, rfl, Memory.wf_reset, fun i => readByte_unwritten State.reset i rfl⟩

/-! ### Power-up (R203, R231) -/

/-- Before the first Create, a request that stands for no Create stops the step. -/
theorem State.IsPowerUp.step_notCreated {s : State} {q : Request} {rest : List Request} (hup : s.IsPowerUp)
    (hq : ∀ k x, q.asOp ≠ .create k x) (hi : s.inputs = q :: rest) : step s = .fault .notCreated :=
  (step_eq_fault_iff s .notCreated).mpr ⟨q, rest, hi, .inl ⟨rfl, hup, hq⟩⟩

theorem step_create {s : State} {k : Sink} {x : Ctx} {rest : List Request} (hi : s.inputs = .op (.create k x) :: rest) :
    step s = .next (createStep k x { s with inputs := rest }) := step_request hi

theorem createStep_isIdle (k : Sink) (x : Ctx) (s : State) : (createStep k x s).IsIdle := ⟨rfl, rfl⟩

/-- Settles O41: a byte, a Destroy and a Write stand for no Create; a Create completes in any `life`. -/
theorem powerUpWaitsForCreate : Obligations.PowerUpWaitsForCreate := fun _ _ hup =>
  ⟨fun _ => hup.step_notCreated nofun, hup.step_notCreated nofun, fun _ => hup.step_notCreated nofun,
    fun k x hi => ⟨_, step_create hi, createStep_life k x _, createStep_isIdle k x _, createStep_inputs k x _⟩⟩

end Sys2Proof.Machine
